-- ==== Sys2Proof/Word.lean ====
section
/-! DEFINITION. The word types: a byte of the bus, and the request word (30_encoding.md R70). -/
namespace Sys2Proof

/-- One logical byte (20_memory.md R53). -/
abbrev Byte := BitVec 8

/-- One half of a byte: what DB7..DB4 carry in one transaction of a 4-bit build (R55). -/
abbrev Nibble := BitVec 4

/-- One request word (30_encoding.md R70). -/
abbrev ReqWord := BitVec 16

end Sys2Proof
end

