-- ==== Sys2Proof/Config.lean ====
section
/-! DEFINITION. The build-time parameters (00_scope.md R3, R10 to R12), the spec's own values of them (30_encoding.md R81,
R82; 95_test_vectors.md TC), and the free value: what the outside world drives onto the input ports. -/
namespace Sys2Proof

/-- BUS_WIDTH of R10. -/
inductive BusWidth where
  | eight
  | four
deriving DecidableEq, Repr, Inhabited

/-- BUSY_MODE of R10. -/
inductive BusyMode where
  | timed
  | polled
deriving DecidableEq, Repr, Inhabited

/-- The command bytes the block itself sends, each a build-time parameter (R81). -/
structure Commands where
  fs8 : Byte
  switch4 : Byte
  fsFinal : Byte
  dispOn : Byte
  entryInc : Byte
  cmdClear : Byte
  cmdHome : Byte
  cmdSetDdram : Byte
deriving DecidableEq, Repr, Inhabited

/-- The values of the column "this spec" of R81; FS_FINAL depends on the bus width. -/
def Commands.spec (width : BusWidth) : Commands where
  fs8 := 0x30
  switch4 := 0x20
  fsFinal := match width with
    | .eight => 0x38
    | .four => 0x28
  dispOn := 0x0C
  entryInc := 0x06
  cmdClear := 0x01
  cmdHome := 0x02
  cmdSetDdram := 0x80

/-- The LINE_BASE table, chosen by COLS (R11). -/
def lineBaseTable (cols : Nat) : Vector Byte 4 :=
  if cols = 16 then #v[0x00, 0x40, 0x10, 0x50] else #v[0x00, 0x40, 0x14, 0x54]

/-- One build of the block: the parameters of R10. The cycle counts are the N_k of R12
(`configOfTiming` computes them from times and a clock frequency). -/
structure Config where
  width : BusWidth
  busy : BusyMode
  /-- LINES, the visible lines. -/
  lines : Nat
  /-- COLS, the visible columns of a line. -/
  cols : Nat
  /-- LINE_BASE, the DDRAM address each line starts at. -/
  lineBase : Vector Byte 4
  busyBit : Fin 8
  nPower : Nat
  nR1 : Nat
  nR2 : Nat
  nR3 : Nat
  nTrail : Nat
  nSwitch : Nat
  nByte : Nat
  nClear : Nat
  nSu : Nat
  nEpw : Nat
  nEh : Nat
  dlyW : Nat
  /-- The implementation takes extra cycles (41_signal_driver.md R101; U21: "The reference timing takes none"; log 7). -/
  stretches : Bool
  cmds : Commands
  chNl : Byte
  chFf : Byte
deriving DecidableEq, Repr, Inhabited

/-- The test configuration TC of 95_test_vectors.md section 1, for a build of the given width and busy mode. -/
def Config.tc (width : BusWidth) (busy : BusyMode) : Config where
  width := width
  busy := busy
  lines := 2
  cols := 16
  lineBase := lineBaseTable 16
  busyBit := 7
  nPower := 10
  nR1 := 6
  nR2 := 3
  nR3 := 3
  nTrail := 2
  nSwitch := 5
  nByte := 5
  nClear := 8
  nSu := 1
  nEpw := 2
  nEh := 1
  dlyW := 4
  stretches := false
  cmds := Commands.spec width
  chNl := 0x0A
  chFf := 0x0C

/-- LINES and COLS have the one value R10 gives them, and LINE_BASE is the table COLS chooses (R11). -/
def Config.geometryOk (c : Config) : Bool :=
  c.lines == 2 && c.cols == 16 && c.lineBase == lineBaseTable c.cols

/-- The parameters that have a value in this spec have that value: LINES, COLS and LINE_BASE (R10, R11), BUSY_BIT (R10), the
command constants (R81) and the control characters (R82). -/
def Config.specValues (c : Config) : Prop :=
  c.geometryOk = true ∧ c.busyBit = 7 ∧ c.cmds = Commands.spec c.width ∧ c.chNl = 0x0A ∧ c.chFf = 0x0C

/-- The OPEN times (seconds) and the clock frequency (hertz) of R10, from which R12 derives the cycle counts. -/
structure Timing where
  fClk : Rat
  tPower : Rat
  tR1 : Rat
  tR2 : Rat
  tR3 : Rat
  tTrail : Rat
  tSwitch : Rat
  tByte : Rat
  tClear : Rat
  tEpw : Rat
  tSu : Rat
  tEh : Rat
deriving DecidableEq, Repr

/-- The reference timing of a build (R101). -/
def Config.reference (c : Config) : Config := { c with stretches := false }

/-- What is decided outside the spec in one cycle: the levels of the input ports (10_state.md R20), and the implementation's
own choice of an extra cycle. -/
structure Inputs where
  rst : Bool
  reqValid : Bool
  reqWord : ReqWord
  lcdDbI : Byte
  /-- No port: the implementation makes this an extra cycle, where it can (R101, log 7). -/
  extra : Bool
deriving DecidableEq, Repr, Inhabited

/-- FREE VALUE (logs 4 and 7): the input levels in a cycle the state's tape says nothing of. The host's part is any level, the
display's part is any answer (41_signal_driver.md R113), the implementation's part is any choice (R101). It has no body, so nothing can be proved of it. -/
opaque Config.freeInputs : Nat → Inputs

end Sys2Proof
end

