-- ==== Sys2Proof/Syntax.lean ====
section
/-! DEFINITION. The requests (30_encoding.md R72), and the assembler's source lines above them (R85 to R88). -/
namespace Sys2Proof

/-- The seven requests of opcode_table.json. Every operand is an unsigned field taken as is (R71), so each operand's type
is its field. -/
inductive Instr where
  /-- `initialize()`, R160. -/
  | init
  /-- `send_command(b)`, R202. -/
  | cmd (b : Byte)
  /-- `send_data(b)`, R203. -/
  | data (b : Byte)
  /-- `clear()`, R184. -/
  | clear
  /-- `home()`, R185. -/
  | home
  /-- `goto(x, y)`: column x = ARG, line y = Y, R180. -/
  | goto (x : Byte) (y : BitVec 2)
  /-- `put_char(c)`, R200. -/
  | putc (c : Byte)
deriving DecidableEq, Repr, Inhabited

/-- An operand as it is written: a number, or a character literal that stands for its ASCII code (R85). -/
inductive Operand where
  | num (n : Nat)
  | chr (c : Char)
deriving DecidableEq, Repr

/-- A source line: the forms of R85, and the pseudo-requests PUTS (R86), NEWLINE and FORMFEED (R87). -/
inductive SourceLine where
  | init
  | cmd (b : Operand)
  | data (b : Operand)
  | clear
  | home
  | goto (x y : Operand)
  | putc (c : Operand)
  | puts (s : List Byte)
  | newline
  | formfeed
deriving DecidableEq, Repr

/-- The source's software interface (R88). `putString`'s argument is the byte sequence its terminator ends. -/
inductive ApiCall where
  | initApi
  | clear
  | home
  | goto (x : Byte) (y : BitVec 2)
  | putChar (c : Byte)
  | putString (s : List Byte)
  | sendCommand (b : Byte)
  | sendData (b : Byte)
deriving DecidableEq, Repr

end Sys2Proof
end

