-- ==== Sys2Proof/WellFormed.lean ====
section
/-! DEFINITION. What is well formed: a source line whose operands fit their fields (30_encoding.md R85), a build whose
parameters meet the constraints (00_scope.md R10 to R12, 41_signal_driver.md R116), and times with a clock frequency (R10). A term of `Instr` is well formed by its
type: each operand's type is its field (R71), and the bits a row fixes at 0 are no part of the term. -/
namespace Sys2Proof

/-- The value an operand stands for; a character outside ASCII has none (R85). -/
def Operand.value : Operand → Option Nat
  | .num n => some n
  | .chr c => if c.toNat < 128 then some c.toNat else none

/-- The operand has a value, and the value is below the bound. -/
def Operand.fits (o : Operand) (bound : Nat) : Bool :=
  match o.value with
  | some n => decide (n < bound)
  | none => false

/-- "An assembler refuses an operand that does not fit its field: b, x and c in 0..255, y in 0..3" (R85). -/
def SourceLine.wellFormed : SourceLine → Bool
  | .init | .clear | .home | .puts _ | .newline | .formfeed => true
  | .cmd b | .data b | .putc b => b.fits 256
  | .goto x y => x.fits 256 && y.fits 4

/-- Every phase the delay counter times fits in DLY_W bits: N_k ≤ 2^DLY_W (R12). -/
def Config.countsFit (c : Config) : Bool :=
  [c.nPower, c.nR1, c.nR2, c.nR3, c.nTrail, c.nSwitch, c.nByte, c.nClear, c.nSu, c.nEpw, c.nEh].all
    fun n => decide (n ≤ 2 ^ c.dlyW)

/-- The counts R12 requires to be at least 1; N_SU, N_TRAIL and N_SWITCH may be 0. -/
def Config.countsPositive (c : Config) : Bool :=
  [c.nPower, c.nR1, c.nR2, c.nR3, c.nByte, c.nClear, c.nEpw, c.nEh].all fun n => decide (1 ≤ n)

/-- A conforming build: the values R10 allows (DLY_W >= 1; LINES, COLS and LINE_BASE, log 9), and the constraints of R12. The
machine refuses to run any other (R116, U7; log 6). -/
def Config.conforming (c : Config) : Bool :=
  decide (1 ≤ c.dlyW) && c.countsFit && c.countsPositive && c.geometryOk

/-- The values R10 allows: F_CLK > 0, and every T_k a time, so not negative (log 16). -/
def Timing.wellFormed (t : Timing) : Bool :=
  decide (0 < t.fClk) &&
    [t.tPower, t.tR1, t.tR2, t.tR3, t.tTrail, t.tSwitch, t.tByte, t.tClear, t.tEpw, t.tSu, t.tEh].all fun x => decide (0 ≤ x)

end Sys2Proof
end

