-- ==== Sys2Proof/Machine/State.lean ====
section
/-! DEFINITION. The block's state (10_state.md R20 to R38), the bus primitives its sequencer holds (41_signal_driver.md
R100), the reasons a step can stop, and the state after reset (70_reset_and_hazards.md R250). -/
namespace Sys2Proof.Machine

/-- The delay names of WAIT (R100). -/
inductive Delay where
  | power
  | r1
  | r2
  | r3
  | trail
  | switch
  | byte
  | clear
deriving DecidableEq, Repr, Inhabited

/-- The operand v of SETRS: a constant, or the latched `rsel_q` (R100). -/
inductive BitSrc where
  | const (v : Bool)
  | rsel
deriving DecidableEq, Repr, Inhabited

/-- The operand b of PUT8, PUTHI and PUTLO: a constant of R81, or the latched `val_q` (R100). -/
inductive ByteSrc where
  | const (b : Byte)
  | val
deriving DecidableEq, Repr, Inhabited

/-- The operand d of SETDIR (R100). -/
inductive Dir where
  | output
  | input
deriving DecidableEq, Repr, Inhabited

/-- The operand of PULSE_RD (R100). -/
inductive Part where
  | full
  | hi
  | lo
deriving DecidableEq, Repr, Inhabited

/-- The primitives that take one cycle and write one output register (R102 to R107). -/
inductive LineOp where
  | setRs (v : BitSrc)
  | setRw (v : Bool)
  | setDir (d : Dir)
  | put8 (b : ByteSrc)
  | putHi (b : ByteSrc)
  | putLo (b : ByteSrc)
deriving DecidableEq, Repr, Inhabited

/-- The bus primitives (R100) and the two composite polls (42_byte_transfer.md R133, R134). -/
inductive Prim where
  | line (op : LineOp)
  | pulse
  | pulseRd (part : Part)
  | wait (k : Delay)
  | poll8
  | poll4
deriving DecidableEq, Repr, Inhabited

/-- The three phases of an enable pulse (R108). -/
inductive PulsePhase where
  | su
  | hi
  | eh
deriving DecidableEq, Repr, Inhabited

/-- What an enable pulse is part of. A sample of POLL4 has two read pulses, high part first (R134), and the pulse under way
is one of them. -/
inductive PulseKind where
  | write
  | read (part : Part)
  | poll8
  | poll4Hi
  | poll4Lo
deriving DecidableEq, Repr, Inhabited

/-- `cur`: the primitive being executed with its sub-state (R33). -/
inductive Cur where
  | line (op : LineOp)
  | wait (k : Delay)
  | pulse (kind : PulseKind) (ph : PulsePhase)
deriving DecidableEq, Repr, Inhabited

/-- `phase`, `cur` and `plist` of R33 in one: in IDLE, `cur` and `plist` are empty, so only RUN carries them (R34). -/
inductive Sequencer where
  | idle
  | run (cur : Cur) (plist : List Prim)
deriving DecidableEq, Repr, Inhabited

/-- Why a request is illegal (60_exceptions.md R221). -/
inductive Cause where
  | opcode
  | field
  | noInit
  | reInit
  | lineRange
deriving DecidableEq, Repr, Inhabited

/-- Faults. No step answers one: the block traps nowhere (R224), hangs are infinite runs (R228), and the illegal-request
action goes on (R222). -/
inductive Fault where
  /-- The fault of a RUN that has had an illegal request, with the code in `cause_q` (R227). Raised by no step:
  `Sys2Proof.Safety.runFault` reads it off the state, so a reset ends it (log 1). Safe between two resets: a claim that excludes
  such runs claims less; unsafe across a reset. -/
  | illegalRequest (code : BitVec 3)
deriving DecidableEq, Repr

/-- Refusals. -/
inductive Refusal where
  /-- Raised by an arm of `exec` whose instruction has no meaning yet; there is no such arm. Safe. -/
  | notModelled (mnemonic : String)
  /-- Raised by `step` when the build's parameters break the constraints of R12 or have values that R10 and R11 do not allow ("A model refuses it at
  configuration time", R116; U7; log 6). Safe: no claim covers such a build. -/
  | nonConformingBuild
deriving DecidableEq, Repr

/-- Everything the spec gives the block: registers (R23 to R33), the levels of the input ports (R20), the build (R10); and
the model's own two fields, `tape` and `tick` (log 4). -/
structure State where
  /-- The build-time parameters; no step changes them (R10). -/
  cfg : Config
  rsQ : Bool
  rwQ : Bool
  eQ : Bool
  dbQ : Byte
  oeQ : Bool
  statQ : Byte
  lineIdx : BitVec 1
  inited : Bool
  errQ : Bool
  causeQ : BitVec 3
  valQ : Byte
  rselQ : Bool
  seq : Sequencer
  dly : Nat
  /-- The levels of the input ports in the present cycle; and MODEL's own, whether the implementation makes it an extra one
  (log 7). -/
  inp : Inputs
  /-- MODEL's own: the input levels of the coming cycles, as far as they are given (log 4). -/
  tape : List Inputs
  /-- MODEL's own: the number of the present cycle (log 4). -/
  tick : Nat
deriving DecidableEq, Repr

/-- The register values of R250 in a given build; the input ports at 0 and no tape (log 4). -/
def State.resetOf (c : Config) : State where
  cfg := c
  rsQ := false
  rwQ := false
  eQ := false
  dbQ := 0x00
  oeQ := true
  statQ := 0x00
  lineIdx := 0
  inited := false
  errQ := false
  causeQ := 0
  valQ := 0x00
  rselQ := false
  seq := .idle
  dly := 0
  inp := { rst := false, reqValid := false, reqWord := 0, lcdDbI := 0, extra := false }
  tape := []
  tick := 0

/-- The machine right after reset (R250, R251), in the build T8 at the test configuration TC (log 3). -/
def State.reset : State := State.resetOf (Config.tc .eight .timed)

end Sys2Proof.Machine
end

