-- ==== Sys2Proof/Machine/Expansion.lean ====
section
/-! DEFINITION. The ordered lists of bus primitives: the four WriteByte expansions (42_byte_transfer.md R130 to R143), the
two mode-lock sequences and the tail of INIT (43_init_sequencer.md R160 to R166), and the clear/home form (44_line_cursor.md
R184). -/
namespace Sys2Proof.Machine

/-- `SETDIR(IN); SETRW(1); SETRS(0)` (R135). -/
def pollPrologue : List Prim :=
  [.line (.setDir .input), .line (.setRw true), .line (.setRs (.const false))]

/-- `SETDIR(OUT); SETRW(0)` (R135). -/
def pollEpilogue : List Prim :=
  [.line (.setDir .output), .line (.setRw false)]

/-- `W_T8(b, r)` (R140). -/
def writeT8 (b : ByteSrc) (r : BitSrc) : List Prim :=
  [.line (.setRs r), .line (.put8 b), .pulse, .wait .byte]

/-- `W_B8(b, r)` (R141). -/
def writeB8 (b : ByteSrc) (r : BitSrc) : List Prim :=
  pollPrologue ++ [.poll8] ++ pollEpilogue ++ [.line (.setRs r), .line (.put8 b), .pulse]

/-- `W_T4(b, r)` (R142). -/
def writeT4 (b : ByteSrc) (r : BitSrc) : List Prim :=
  [.line (.setRs r), .line (.putHi b), .pulse, .line (.putLo b), .pulse, .wait .byte]

/-- `W_B4(b, r)` (R143). -/
def writeB4 (b : ByteSrc) (r : BitSrc) : List Prim :=
  pollPrologue ++ [.poll4] ++ pollEpilogue
    ++ [.line (.setRs r), .line (.putHi b), .pulse, .line (.putLo b), .pulse]

/-- `WriteByte(b, r)`: the list of the build's variant (R130). -/
def writeByte (c : Config) (b : ByteSrc) (r : BitSrc) : List Prim :=
  match c.width, c.busy with
  | .eight, .timed => writeT8 b r
  | .eight, .polled => writeB8 b r
  | .four, .timed => writeT4 b r
  | .four, .polled => writeB4 b r

/-- `seq(WriteByte(b, r); WAIT(CLEAR))`: CLEAR, HOME and the clear form of PUTC (R184, R185, R201). The wait is there in all
four variants (R187). -/
def writeAndSettle (c : Config) (b : ByteSrc) (r : BitSrc) : List Prim :=
  writeByte c b r ++ [.wait .clear]

/-- `MODELOCK_8` (R162). -/
def modeLock8 (c : Config) : List Prim :=
  let fs8 := ByteSrc.const c.cmds.fs8
  [.wait .power, .line (.setRs (.const false)), .line (.put8 fs8), .pulse, .wait .r1, .line (.put8 fs8), .pulse, .wait .r2,
    .line (.put8 fs8), .pulse, .wait .r3, .wait .trail]

/-- `MODELOCK_4` (R164). -/
def modeLock4 (c : Config) : List Prim :=
  let fs8 := ByteSrc.const c.cmds.fs8
  [.wait .power, .line (.setRs (.const false)), .line (.putHi fs8), .pulse, .wait .r1, .line (.putHi fs8), .pulse, .wait .r2,
    .line (.putHi fs8), .pulse, .wait .r3, .wait .trail, .line (.putHi (.const c.cmds.switch4)), .pulse, .wait .switch]

/-- MODELOCK, by bus width (R160). -/
def modeLock (c : Config) : List Prim :=
  match c.width with
  | .eight => modeLock8 c
  | .four => modeLock4 c

/-- TAIL (R166). -/
def initTail (c : Config) : List Prim :=
  let command := BitSrc.const false
  writeByte c (.const c.cmds.fsFinal) command ++ writeByte c (.const c.cmds.dispOn) command
    ++ writeByte c (.const c.cmds.entryInc) command ++ writeAndSettle c (.const c.cmds.cmdClear) command

/-- The expansion of INIT: `seq(MODELOCK; TAIL)` (R160). -/
def initSequence (c : Config) : List Prim := modeLock c ++ initTail c

end Sys2Proof.Machine
end

