-- ==== Sys2Proof/Decode.lean ====
section
/-! DEFINITION. Reading a request word (30_encoding.md R70 to R74), and after it the encoder and the assembler (R85 to
R88). The decoder is total on all 2^16 words and says by name why it takes a word for no request. -/
namespace Sys2Proof

/-- Why a word is no request (R73, R74). -/
inductive DecodeError where
  /-- OP is 0x7 to 0xF: illegal request with cause OPCODE. -/
  | reservedOpcode
  /-- A must-be-zero field is nonzero: illegal request with cause FIELD. -/
  | nonzeroField
deriving DecidableEq, Repr

/-- OP, bits 15..12 (R70). -/
def fieldOp (w : ReqWord) : BitVec 4 := w.extractLsb' 12 4

/-- Y, bits 11..10 (R70). -/
def fieldY (w : ReqWord) : BitVec 2 := w.extractLsb' 10 2

/-- Z, bits 9..8 (R70). -/
def fieldZ (w : ReqWord) : BitVec 2 := w.extractLsb' 8 2

/-- ARG, bits 7..0 (R70). -/
def fieldArg (w : ReqWord) : Byte := w.extractLsb' 0 8

/-- The request, if the fields that its row fixes at 0 are 0 (R73). -/
def ifZero (zero : Bool) (i : Instr) : Except DecodeError Instr :=
  if zero then .ok i else .error .nonzeroField

/-- The request a word stands for: the opcode assignment of R72 with the must-be-zero fields of R73. -/
def decode (w : ReqWord) : Except DecodeError Instr :=
  let y0 := fieldY w == 0
  let z0 := fieldZ w == 0
  let a0 := fieldArg w == 0
  match (fieldOp w).toNat with
  | 0 => ifZero (y0 && z0 && a0) .init
  | 1 => ifZero (y0 && z0) (.cmd (fieldArg w))
  | 2 => ifZero (y0 && z0) (.data (fieldArg w))
  | 3 => ifZero (y0 && z0 && a0) .clear
  | 4 => ifZero (y0 && z0 && a0) .home
  | 5 => ifZero z0 (.goto (fieldArg w) (fieldY w))
  | 6 => ifZero (y0 && z0) (.putc (fieldArg w))
  | _ => .error .reservedOpcode

/-- The decoder on a table row's bits: every request is one 16-bit word (R77), bits above `nbits` are 0, and more than
16 bits are no request. -/
def decodeTableWord (nbits w : Nat) : Option Instr :=
  if nbits ≤ 16 then (decode (BitVec.ofNat 16 (w % 2 ^ nbits))).toOption else none

/-- `{OP, Y, Z, ARG}` with Z = 0: the format of R70. -/
def reqWord (op : BitVec 4) (y : BitVec 2) (arg : Byte) : ReqWord :=
  op ++ y ++ (0 : BitVec 2) ++ arg

/-- The word of a request: `(OP << 12) | (y << 10) | ARG` (R85). -/
def encode : Instr → ReqWord
  | .init => reqWord 0x0 0 0
  | .cmd b => reqWord 0x1 0 b
  | .data b => reqWord 0x2 0 b
  | .clear => reqWord 0x3 0 0
  | .home => reqWord 0x4 0 0
  | .goto x y => reqWord 0x5 y x
  | .putc c => reqWord 0x6 0 c

/-- "stopping before the first byte equal to 0x00" (R86). -/
def untilNul : List Byte → List Byte
  | [] => []
  | b :: rest => if b = 0 then [] else b :: untilNul rest

/-- A written operand as a field of the given width. -/
def Operand.field (o : Operand) (width : Nat) : BitVec width :=
  BitVec.ofNat width (o.value.getD 0)

/-- The requests a well-formed source line expands to (R85, R86, R87). -/
def SourceLine.expand : SourceLine → List Instr
  | .init => [.init]
  | .cmd b => [.cmd (b.field 8)]
  | .data b => [.data (b.field 8)]
  | .clear => [.clear]
  | .home => [.home]
  | .goto x y => [.goto (x.field 8) (y.field 2)]
  | .putc c => [.putc (c.field 8)]
  | .puts s => (untilNul s).map .putc
  | .newline => [.putc 0x0A]
  | .formfeed => [.putc 0x0C]

/-- The words of a source line; none where the assembler refuses the line (R85). -/
def assemble (l : SourceLine) : Option (List ReqWord) :=
  if l.wellFormed then some (l.expand.map encode) else none

/-- The source line a call of the source's interface stands for (R88). -/
def ApiCall.line : ApiCall → SourceLine
  | .initApi => .init
  | .clear => .clear
  | .home => .home
  | .goto x y => .goto (.num x.toNat) (.num y.toNat)
  | .putChar c => .putc (.num c.toNat)
  | .putString s => .puts s
  | .sendCommand b => .cmd (.num b.toNat)
  | .sendData b => .data (.num b.toNat)

end Sys2Proof
end

