-- ==== Sys2Proof/Machine/Operands.lean ====
section
/-! DEFINITION. Operand forms: nibbles and where they go on the bus (20_memory.md R54 to R56), the sources a primitive
reads (41_signal_driver.md R100), DDRAM addresses and the commands that carry them (44_line_cursor.md R181, R182), and
the length of each timed phase (00_scope.md R12). -/
namespace Sys2Proof.Machine

/-- v[7:4] (R16). -/
def hiNibble (v : Byte) : Nibble := v.extractLsb' 4 4

/-- v[3:0] (R16). -/
def loNibble (v : Byte) : Nibble := v.extractLsb' 0 4

/-- `r[7:4] <- n`, with r[3:0] unchanged (R106, R107, R110). -/
def setHi (r : Byte) (n : Nibble) : Byte := n ++ loNibble r

/-- `r[3:0] <- n`, with r[7:4] unchanged (R110). -/
def setLo (r : Byte) (n : Nibble) : Byte := hiNibble r ++ n

/-- LINE_BASE[y]. Called only with y < LINES (R11, R64). -/
def lineBase (c : Config) (y : Nat) : Byte := c.lineBase[y]?.getD 0

/-- `ddram(x, y) = (LINE_BASE[y] + x) mod 128`, a 7-bit address (R181). -/
def ddram (c : Config) (x : Byte) (y : Nat) : BitVec 7 :=
  BitVec.ofNat 7 (((lineBase c y).toNat + x.toNat) % 128)

/-- `CMD_SETDDRAM | ddram(x, y)` (R182). -/
def setDdramCmd (c : Config) (x : Byte) (y : Nat) : Byte :=
  c.cmds.cmdSetDdram ||| (ddram c x y).zeroExtend 8

/-- `(line_idx + 1) mod LINES` (R186). -/
def nextLine (c : Config) (l : BitVec 1) : BitVec 1 := BitVec.ofNat 1 ((l.toNat + 1) % c.lines)

/-- The value of SETRS's operand (R102). -/
def bitOf (s : State) : BitSrc → Bool
  | .const v => v
  | .rsel => s.rselQ

/-- The value of the operand of PUT8, PUTHI and PUTLO (R105 to R107). -/
def byteOf (s : State) : ByteSrc → Byte
  | .const b => b
  | .val => s.valQ

/-- N_k of WAIT(k) (R12, R111). -/
def delayCycles (c : Config) : Delay → Nat
  | .power => c.nPower
  | .r1 => c.nR1
  | .r2 => c.nR2
  | .r3 => c.nR3
  | .trail => c.nTrail
  | .switch => c.nSwitch
  | .byte => c.nByte
  | .clear => c.nClear

/-- N_SU, N_EPW and N_EH (R108). -/
def phaseCycles (c : Config) : PulsePhase → Nat
  | .su => c.nSu
  | .hi => c.nEpw
  | .eh => c.nEh

/-- What a read pulse of the given part makes of `stat_q` when it samples `smp` (R110): in 4-bit builds both parts come
from DB7..DB4. -/
def sampleInto (part : Part) (stat smp : Byte) : Byte :=
  match part with
  | .full => smp
  | .hi => setHi stat (hiNibble smp)
  | .lo => setLo stat (hiNibble smp)

end Sys2Proof.Machine
end

