-- ==== Sys2Proof/Machine/Flags.lean ====
section
/-! DEFINITION. The flags (10_state.md R35) and the status outputs made of them (R20): the busy flag, the sticky error and
its cause code (60_exceptions.md R221, R222), and the order of the request checks (R220). -/
namespace Sys2Proof.Machine

/-- The busy flag: bit BUSY_BIT of the assembled status (R56, R132). -/
def busyFlag (c : Config) (stat : Byte) : Bool := stat.getLsbD c.busyBit.val

/-- `phase == IDLE` (R33). -/
def isIdle (s : State) : Bool :=
  match s.seq with
  | .idle => true
  | .run _ _ => false

/-- `req_ready = (phase == IDLE) and not rst` (R20). -/
def reqReady (s : State) : Bool := isIdle s && !s.inp.rst

/-- `init_done = inited and (phase == IDLE)` (R20). -/
def initDone (s : State) : Bool := s.inited && isIdle s

/-- The codes of R221; 0 is NONE, and 6 and 7 are no cause's code. -/
def causeCode : Cause → BitVec 3
  | .opcode => 1
  | .field => 2
  | .noInit => 3
  | .reInit => 4
  | .lineRange => 5

/-- The cause a rejected word has (R73, R74). -/
def causeOfDecode : DecodeError → Cause
  | .reservedOpcode => .opcode
  | .nonzeroField => .field

/-- `if err_q == 0: err_q <- 1; cause_q <- cause` (R222). -/
def recordError (cause : Cause) (s : State) : State :=
  if s.errQ then s else { s with errQ := true, causeQ := causeCode cause }

/-- The request checks in the order of R220, on the word as presented, in a build; none: the request is legal. The machine makes
checks 1 and 2 in `decode` and checks 3 and 4 in the meanings. -/
def check (c : Config) (w : ReqWord) (inited : Bool) : Option Cause :=
  let op := (fieldOp w).toNat
  if 0x7 ≤ op then some .opcode
  else if fieldZ w ≠ 0 ∨ (op ≠ 0x5 ∧ fieldY w ≠ 0) ∨ ((op = 0x0 ∨ op = 0x3 ∨ op = 0x4) ∧ fieldArg w ≠ 0) then
    some .field
  else if op = 0x0 ∧ inited = true then some .reInit
  else if op ≠ 0x0 ∧ inited = false then some .noInit
  else if op = 0x5 ∧ c.lines ≤ (fieldY w).toNat then some .lineRange
  else none

end Sys2Proof.Machine
end

