-- ==== Sys2Proof/Machine/Ops.lean ====
section
/-! DEFINITION. The named operations: what each bus primitive does (41_signal_driver.md R101 to R116), accepting a request
(30_encoding.md R76), and the illegal-request action (60_exceptions.md R222), which is all this hardware has for taking an
exception: there is no trap entry (R224) and no return (R225).

A register holds a primitive's value from the primitive's first cycle on (R102: "`lcd_rs = v` from cycle s on"), so the
clock edge that makes a primitive the current one also makes its write (log 10). -/
namespace Sys2Proof.Machine

/-- The one register write of a one-cycle primitive (R102 to R107). -/
def applyLine (op : LineOp) (s : State) : State :=
  match op with
  | .setRs v => { s with rsQ := bitOf s v }
  | .setRw v => { s with rwQ := v }
  | .setDir .output => { s with oeQ := true }
  | .setDir .input => { s with oeQ := false }
  | .put8 b => { s with dbQ := byteOf s b }
  | .putHi b => { s with dbQ := setHi s.dbQ (hiNibble (byteOf s b)) }
  | .putLo b => { s with dbQ := setHi s.dbQ (loNibble (byteOf s b)) }

/-- The first cycle of a pulse phase: `e_q` is 1 in HI and 0 in SU and EH (R108), and `dly = N - 1` (R115). -/
def enterPhase (kind : PulseKind) (ph : PulsePhase) (rest : List Prim) (s : State) : State :=
  { s with seq := .run (.pulse kind ph) rest, eQ := ph == .hi, dly := phaseCycles s.cfg ph - 1 }

/-- The first cycle of an enable pulse; N_SU = 0 leaves out the SU phase (R108). -/
def startPulse (kind : PulseKind) (rest : List Prim) (s : State) : State :=
  if s.cfg.nSu = 0 then enterPhase kind .hi rest s else enterPhase kind .su rest s

/-- The first cycle after a primitive has ended, with the given primitives left. A WAIT of no cycles is passed over (R111);
after the last primitive the block is IDLE, with `dly = 0` (R101, R115). -/
def load : List Prim → State → State
  | [], s => { s with seq := .idle, dly := 0 }
  | .line op :: rest, s => { applyLine op s with seq := .run (.line op) rest, dly := 0 }
  | .pulse :: rest, s => startPulse .write rest s
  | .pulseRd part :: rest, s => startPulse (.read part) rest s
  | .poll8 :: rest, s => startPulse .poll8 rest s
  | .poll4 :: rest, s => startPulse .poll4Hi rest s
  | .wait k :: rest, s =>
    if delayCycles s.cfg k = 0 then load rest s
    else { s with seq := .run (.wait k) rest, dly := delayCycles s.cfg k - 1 }

/-- The part of the status a pulse samples; a write pulse samples nothing (R110, R133, R134). -/
def samplePart : PulseKind → Option Part
  | .write => none
  | .read part => some part
  | .poll8 => some .full
  | .poll4Hi => some .hi
  | .poll4Lo => some .lo

/-- The sample of a read pulse, taken of `lcd_db_i` in the last HI cycle (R110, R112). -/
def takeSample (kind : PulseKind) (s : State) : State :=
  match samplePart kind with
  | some part => { s with statQ := sampleInto part s.statQ s.inp.lcdDbI }
  | none => s

/-- The poll test (R132): another sample while the busy flag is 1, the primitives after the poll otherwise. It takes no
cycle of its own, and there is no bound on the samples (R131). -/
def pollTest (again : PulseKind) (rest : List Prim) (s : State) : State :=
  if busyFlag s.cfg s.statQ then startPulse again rest s else load rest s

/-- The first cycle after an enable pulse (R108, R110, R133, R134). -/
def endPulse (kind : PulseKind) (rest : List Prim) (s : State) : State :=
  match kind with
  | .write => load rest s
  | .read _ => load rest s
  | .poll8 => pollTest .poll8 rest s
  | .poll4Hi => startPulse .poll4Lo rest s
  | .poll4Lo => pollTest .poll4Hi rest s

/-- What follows the last cycle of the current primitive or pulse phase. -/
def finish (cur : Cur) (rest : List Prim) (s : State) : State :=
  match cur with
  | .line _ => load rest s
  | .wait _ => load rest s
  | .pulse kind .su => enterPhase kind .hi rest s
  | .pulse kind .hi => enterPhase kind .eh rest (takeSample kind s)
  | .pulse kind .eh => endPulse kind rest s

/-- One cycle of RUN: count down, and go on after the cycle with `dly = 0` (R115). -/
def advance (cur : Cur) (rest : List Prim) (s : State) : State :=
  if s.dly = 0 then finish cur rest s else { s with dly := s.dly - 1 }

/-- What the acceptance edge of a legal request does beside the request's own `line_idx` and `inited` (R76): latch the byte
and the register select, and load the expansion. -/
def accept (val : Byte) (rsel : Bool) (expansion : List Prim) (s : State) : State :=
  load expansion { s with valQ := val, rselQ := rsel }

/-- `raise IllegalRequest(cause)` (R222): the first cause is recorded, the block stays IDLE, nothing else changes. -/
def illegalRequest (cause : Cause) (s : State) : State := recordError cause s

/-- The legality check of every request but INIT (R220, check 3): NOINIT before INIT, the request's effect after it. -/
def whenInited (s : State) (effect : State) : State :=
  if s.inited then effect else illegalRequest .noInit s

/-- A clock edge with `rst = 1` (R250): every register takes its reset value. The build and what drives the input ports are
no registers. -/
def resetEdge (s : State) : State :=
  { State.resetOf s.cfg with inp := s.inp, tape := s.tape, tick := s.tick }

end Sys2Proof.Machine
end

