-- ==== Sys2Proof/Machine/Init.lean ====
section
/-! DEFINITION. The meaning of INIT (43_init_sequencer.md). A meaning is what the acceptance edge of the request does
(30_encoding.md R76, 60_exceptions.md R220); the primitives it loads run in the cycles after it (log 10). -/
namespace Sys2Proof.Machine

/-- INIT (R160): legal only while `inited = 0`, else REINIT. -/
def execInit (s : State) : Host.Outcome State Fault Refusal :=
  .next <|
    if s.inited then illegalRequest .reInit s
    else accept 0x00 false (initSequence s.cfg) { s with inited := true, lineIdx := 0 }

end Sys2Proof.Machine
end

