-- ==== Sys2Proof/Machine/LineCursor.lean ====
section
/-! DEFINITION. The meanings of GOTO, CLEAR and HOME, and the two actions PUTC shares with the Line/Cursor Model
(44_line_cursor.md). -/
namespace Sys2Proof.Machine

/-- The acceptance of a request that sets the line index to 0, sends one command and waits for it to settle (R184, R185). -/
def acceptSettle (command : Byte) (s : State) : State :=
  accept command false (writeAndSettle s.cfg .val .rsel) { s with lineIdx := 0 }

/-- The newline handling of R186: the next line, and the set-DDRAM-address command of its first column. -/
def acceptNewline (s : State) : State :=
  let l := nextLine s.cfg s.lineIdx
  accept (setDdramCmd s.cfg 0 l.toNat) false (writeByte s.cfg .val .rsel) { s with lineIdx := l }

/-- CLEAR (R184). -/
def execClear (s : State) : Host.Outcome State Fault Refusal :=
  .next (whenInited s (acceptSettle s.cfg.cmds.cmdClear s))

/-- HOME (R185). -/
def execHome (s : State) : Host.Outcome State Fault Refusal :=
  .next (whenInited s (acceptSettle s.cfg.cmds.cmdHome s))

/-- GOTO x, y (R180): y is checked against LINES, x is not checked (R190), and `line_idx` is not written (R183). -/
def execGoto (x : Byte) (y : BitVec 2) (s : State) : Host.Outcome State Fault Refusal :=
  .next <| whenInited s <|
    if s.cfg.lines ≤ y.toNat then illegalRequest .lineRange s
    else accept (setDdramCmd s.cfg x y.toNat) false (writeByte s.cfg .val .rsel) s

end Sys2Proof.Machine
end

