-- ==== Sys2Proof/Machine/Text.lean ====
section
/-! DEFINITION. The meanings of CMD, DATA and PUTC (45_text_api.md). -/
namespace Sys2Proof.Machine

/-- The acceptance of a request that sends one byte (R202, R203). -/
def acceptByte (val : Byte) (rsel : Bool) (s : State) : State :=
  accept val rsel (writeByte s.cfg .val .rsel) s

/-- CMD b (R202). -/
def execCmd (b : Byte) (s : State) : Host.Outcome State Fault Refusal :=
  .next (whenInited s (acceptByte b false s))

/-- DATA b (R203). -/
def execData (b : Byte) (s : State) : Host.Outcome State Fault Refusal :=
  .next (whenInited s (acceptByte b true s))

/-- PUTC c (R200), by the first case of R201 that matches. -/
def execPutc (c : Byte) (s : State) : Host.Outcome State Fault Refusal :=
  .next <| whenInited s <|
    if c = s.cfg.chFf then acceptSettle s.cfg.cmds.cmdClear s
    else if c = s.cfg.chNl then acceptNewline s
    else acceptByte c true s

end Sys2Proof.Machine
end

