-- ==== Sys2Proof/Machine/Dispatch.lean ====
section
/-! DEFINITION. One arm per request: its meaning. -/
namespace Sys2Proof.Machine

/-- The acceptance edge of a request (30_encoding.md R76, 60_exceptions.md R220). -/
def exec (i : Instr) (s : State) : Host.Outcome State Fault Refusal :=
  match i with
  | .init => Sys2Proof.Machine.execInit s
  | .cmd b => Sys2Proof.Machine.execCmd b s
  | .data b => Sys2Proof.Machine.execData b s
  | .clear => Sys2Proof.Machine.execClear s
  | .home => Sys2Proof.Machine.execHome s
  | .goto x y => Sys2Proof.Machine.execGoto x y s
  | .putc c => Sys2Proof.Machine.execPutc c s

end Sys2Proof.Machine
end

