-- ==== Sys2Proof/Machine/Clock.lean ====
section
/-! DEFINITION. One rising edge of `clk`: reset, acceptance, a cycle of the sequencer, an extra or an idle cycle (41_signal_driver.md
R101, 30_encoding.md R75, 60_exceptions.md R223), and the input levels of the cycle after it. -/
namespace Sys2Proof.Machine

/-- The acceptance edge for the word on the request port (R76, R220): a word that is no request is illegal with the
decoder's cause, any other is executed. -/
def acceptRequest (s : State) : Host.Outcome State Fault Refusal :=
  match decode s.inp.reqWord with
  | .ok i => exec i s
  | .error e => .next (illegalRequest (causeOfDecode e) s)

/-- The present cycle is an extra one: "A conforming implementation may take more cycles in any primitive, or insert idle
cycles between primitives" (R101). Only a build that stretches has one, only while a request runs, and never in a cycle with
`rst = 1` (log 7). -/
def extraCycle (s : State) : Bool := s.cfg.stretches && s.inp.extra && !s.inp.rst && !isIdle s

/-- What the registers do at one edge. `rst` has priority over everything (R223, R250); in an extra cycle everything holds
("provided the order of bus events is unchanged and the outputs hold during the extra cycles", R101); a request is accepted
only in IDLE (R75); in IDLE without a request everything holds (R114). -/
def edge (s : State) : Host.Outcome State Fault Refusal :=
  if s.inp.rst then .next (resetEdge s)
  else if extraCycle s then .next s
  else
    match s.seq with
    | .run cur rest => .next (advance cur rest s)
    | .idle => if s.inp.reqValid then acceptRequest s else .next s

/-- The levels of the input ports in the cycle `j` cycles after the present one: the present levels, then the tape, then the
free value (log 4). -/
def inputAt (s : State) : Nat → Inputs
  | 0 => s.inp
  | j + 1 => (s.tape[j]?).getD (Config.freeInputs (s.tick + (j + 1)))

/-- The next cycle's input levels (log 4). -/
def nextInputs (s : State) : State :=
  { s with inp := inputAt s 1, tape := s.tape.tail, tick := s.tick + 1 }

/-- An edge, and then the next cycle's input levels. -/
def cycle (s : State) : Host.Outcome State Fault Refusal :=
  match edge s with
  | .next t => .next (nextInputs t)
  | .fault r => .fault r
  | .refused r => .refused r

/-- A conforming build runs; any other is refused (R116, U7; log 6). -/
def clock (s : State) : Host.Outcome State Fault Refusal :=
  if s.cfg.conforming then cycle s else .refused .nonConformingBuild

/-- The block ready to accept, with the given word presented on its request port and `rst = 0` (log 5). -/
def present (s : State) (w : ReqWord) : State :=
  { s with seq := .idle, dly := 0, inp := { s.inp with rst := false, reqValid := true, reqWord := w } }

end Sys2Proof.Machine
end

