-- ==== Sys2Proof/Machine/Step.lean ====
section
/-! DEFINITION. The step is one rising edge of `clk`; and the request the host of this row places (log 5). -/
namespace Sys2Proof.Machine

/-- One cycle (41_signal_driver.md R101). -/
def step (s : State) : Host.Outcome State Fault Refusal := clock s

/-- The state with a table row's word presented on the request port, so that the next step accepts it (log 5). -/
def State.withFetchWord (s : State) (nbits w : Nat) : State :=
  present s (BitVec.ofNat 16 (w % 2 ^ nbits))

end Sys2Proof.Machine
end

