-- ==== Sys2Proof/Machine/Outputs.lean ====
section
/-! DEFINITION. The output ports (10_state.md R20): what a host and a display see of a state. -/
namespace Sys2Proof.Machine

/-- The levels of the output ports in one cycle. -/
structure Outputs where
  reqReady : Bool
  initDone : Bool
  err : Bool
  errCause : BitVec 3
  lineO : BitVec 1
  lcdRs : Bool
  lcdRw : Bool
  lcdE : Bool
  lcdDbO : Byte
  lcdDbOe : Bool
deriving DecidableEq, Repr

/-- Each output is the register or the expression of R20. -/
def outputs (s : State) : Outputs where
  reqReady := reqReady s
  initDone := initDone s
  err := s.errQ
  errCause := s.causeQ
  lineO := s.lineIdx
  lcdRs := s.rsQ
  lcdRw := s.rwQ
  lcdE := s.eQ
  lcdDbO := s.dbQ
  lcdDbOe := s.oeQ

end Sys2Proof.Machine
end

