-- ==== Sys2Proof/Machine/Observe.lean ====
section
/-! DEFINITION. The bus events an observer records (20_memory.md R69), and the events of a run. -/
namespace Sys2Proof.Machine

/-- `rst = 0` in the present cycle and the `n - 1` cycles after it. -/
def noReset (s : State) (n : Nat) : Prop := ∀ j, j < n → (inputAt s j).rst = false

/-- In the present cycle and the `n - 1` cycles after it `rst = 0`, and the implementation makes none of them an extra one:
the reference timing of R101. -/
def steady (s : State) (n : Nat) : Prop :=
  ∀ j, j < n → (inputAt s j).rst = false ∧ (s.cfg.stretches = true → (inputAt s j).extra = false)

/-- The state in the build's reference timing (R101). -/
def reference (s : State) : State := { s with cfg := s.cfg.reference }

/-- The value of a write event: a byte in 8-bit builds, DB7..DB4 in 4-bit builds (R69). -/
inductive BusData where
  | byte (b : Byte)
  | nibble (n : Nibble)
deriving DecidableEq, Repr

/-- The display events of R69. -/
inductive BusEvent where
  /-- A display write event. -/
  | write (rs : Bool) (v : BusData)
  /-- A display read event, with the value the block sampled. -/
  | read (rs : Bool) (sample : Byte)
  /-- A display read event whose pulse a reset cut short before its sampling instant, so that there is no sampled value
  (log 11). -/
  | readCut (rs : Bool)
deriving DecidableEq, Repr

/-- What the data lines show the display (R69). -/
def busData (s : State) : BusData :=
  match s.cfg.width with
  | .eight => .byte s.dbQ
  | .four => .nibble (hiNibble s.dbQ)

/-- The block samples `lcd_db_i` in this cycle: the last HI cycle of a read pulse (R112), which is no extra one. -/
def sampling (s : State) : Bool :=
  match s.seq with
  | .run (.pulse kind .hi) _ => s.dly == 0 && (samplePart kind).isSome && !extraCycle s
  | _ => false

/-- The event at the edge from `s` to `t`: a fall of `lcd_e`, with the values of the last cycle in which it was 1 (R69). A
reset in the sampling cycle of a read pulse still finds a sample, an earlier one finds none (log 11). -/
def busEvent (s t : State) : Option BusEvent :=
  if s.eQ && !t.eQ then
    if s.rwQ then
      some (if s.inp.rst && !sampling s then .readCut s.rsQ else .read s.rsQ s.inp.lcdDbI)
    else some (.write s.rsQ (busData s))
  else none

/-- The state after `n` cycles and the bus events on the way, in order, each with the number of cycles from the start to its
cycle, the first one with `lcd_e = 0` (R69); none if a step does not answer a next state. `k` counts the cycles before. -/
def traceFrom (k : Nat) : Nat → State → Option (List (Nat × BusEvent) × State)
  | 0, s => some ([], s)
  | n + 1, s =>
    match step s with
    | .next t =>
      match traceFrom (k + 1) n t with
      | some (es, u) => some (((busEvent s t).map fun e => (k + 1, e)).toList ++ es, u)
      | none => none
    | .fault _ => none
    | .refused _ => none

/-- The trace of `n` cycles, the present cycle being cycle 0 (41_signal_driver.md R101). -/
def trace (n : Nat) (s : State) : Option (List (Nat × BusEvent) × State) := traceFrom 0 n s

end Sys2Proof.Machine
end

