-- ==== Sys2Proof/Machine/Timing.lean ====
section
/-! DEFINITION. Cycle counts: from times and a clock frequency (00_scope.md R12), and the reference timing of the requests
(42_byte_transfer.md R145, 43_init_sequencer.md R167, 70_reset_and_hazards.md R270). -/
namespace Sys2Proof.Machine

/-- `N_k = ceil(T_k × F_CLK)`, the least natural number that is not less (R12). -/
def cycleCount (t fClk : Rat) : Nat := ⌈t * fClk⌉₊

/-- The cycle count of every delay parameter (R12). -/
def withCounts (t : Timing) (c : Config) : Config :=
  { c with
    nPower := cycleCount t.tPower t.fClk,
    nR1 := cycleCount t.tR1 t.fClk,
    nR2 := cycleCount t.tR2 t.fClk,
    nR3 := cycleCount t.tR3 t.fClk,
    nTrail := cycleCount t.tTrail t.fClk,
    nSwitch := cycleCount t.tSwitch t.fClk,
    nByte := cycleCount t.tByte t.fClk,
    nClear := cycleCount t.tClear t.fClk,
    nSu := cycleCount t.tSu t.fClk,
    nEpw := cycleCount t.tEpw t.fClk,
    nEh := cycleCount t.tEh t.fClk }

/-- The build with the cycle counts the times and the clock frequency give (R12), and the other parameters as they are; none
where R10 does not allow the times or the frequency. -/
def configOfTiming (t : Timing) (c : Config) : Option Config :=
  if t.wellFormed then some (withCounts t c) else none

/-- N_P = N_SU + N_EPW + N_EH (R101). -/
def pulseCycles (c : Config) : Nat := c.nSu + c.nEpw + c.nEh

/-- The cycles of one WriteByte, with `m` poll samples in POLLED builds (R145). -/
def writeByteCycles (c : Config) (m : Nat) : Nat :=
  match c.width, c.busy with
  | .eight, .timed => 2 + pulseCycles c + c.nByte
  | .eight, .polled => 7 + (m + 1) * pulseCycles c
  | .four, .timed => 3 + 2 * pulseCycles c + c.nByte
  | .four, .polled => 8 + (2 * m + 2) * pulseCycles c

/-- The cycles of the mode-lock sequence (R162, R164). -/
def modeLockCycles (c : Config) : Nat :=
  match c.width with
  | .eight => c.nPower + 1 + 3 * (1 + pulseCycles c) + c.nR1 + c.nR2 + c.nR3 + c.nTrail
  | .four => c.nPower + 1 + 4 * (1 + pulseCycles c) + c.nR1 + c.nR2 + c.nR3 + c.nTrail + c.nSwitch

/-- The cycles of INIT, with the sample counts of the four TAIL writes (R167). -/
def initCycles (c : Config) (m1 m2 m3 m4 : Nat) : Nat :=
  modeLockCycles c + writeByteCycles c m1 + writeByteCycles c m2 + writeByteCycles c m3 + writeByteCycles c m4 + c.nClear

end Sys2Proof.Machine
end

