-- ==== Sys2Proof/Safety.lean ====
section
/-! DEFINITION. What claims are stated in: the fault of a run (60_exceptions.md R227) and the well-formed states of the
block. -/
namespace Sys2Proof.Safety
open Sys2Proof.Machine

/-- The fault of the run a state belongs to: "A model records `err_q = 1` as a fault of the run" (R227). That a reset, which
clears `err_q`, ends the fault and begins a new run is the model's choice (log 1). -/
def runFault (s : State) : Option Fault :=
  if s.errQ then some (.illegalRequest s.causeQ) else none

/-- The builds in which a one-cycle primitive may occur (41_signal_driver.md R117). -/
def lineOpIn (c : Config) : LineOp → Bool
  | .setRs _ => true
  | .setRw _ => c.busy == .polled
  | .setDir _ => c.busy == .polled
  | .put8 _ => c.width == .eight
  | .putHi _ => c.width == .four
  | .putLo _ => c.width == .four

/-- The builds in which a primitive may occur (R117). -/
def primIn (c : Config) : Prim → Bool
  | .line op => lineOpIn c op
  | .pulse => true
  | .pulseRd .full => c.width == .eight && c.busy == .polled
  | .pulseRd .hi => c.width == .four && c.busy == .polled
  | .pulseRd .lo => c.width == .four && c.busy == .polled
  | .wait _ => true
  | .poll8 => c.width == .eight && c.busy == .polled
  | .poll4 => c.width == .four && c.busy == .polled

/-- The builds in which a pulse of the given kind may occur (R117). -/
def kindIn (c : Config) : PulseKind → Bool
  | .write => true
  | .read part => primIn c (.pulseRd part)
  | .poll8 => primIn c .poll8
  | .poll4Hi => primIn c .poll4
  | .poll4Lo => primIn c .poll4

/-- The builds in which the current primitive may occur (R117). -/
def curIn (c : Config) : Cur → Bool
  | .line op => lineOpIn c op
  | .wait _ => true
  | .pulse kind _ => kindIn c kind

/-- The control lines as a list of primitives finds and leaves them: RS where it is known, RW, and the direction. -/
structure Lines where
  rs : Option Bool
  rw : Bool
  oe : Bool
deriving DecidableEq, Repr

/-- What a one-cycle primitive makes of the control lines (R102 to R107); the latched `rsel` is not known here. -/
def Lines.after (l : Lines) : LineOp → Lines
  | .setRs (.const v) => { l with rs := some v }
  | .setRs .rsel => { l with rs := none }
  | .setRw v => { l with rw := v }
  | .setDir .output => { l with oe := true }
  | .setDir .input => { l with oe := false }
  | .put8 _ => l
  | .putHi _ => l
  | .putLo _ => l

/-- A write pulse comes with RW = 0 and the bus an output; a read pulse with RW = 1, the bus an input and RS = 0 (R110,
R135). -/
def Lines.allow (l : Lines) : PulseKind → Bool
  | .write => !l.rw && l.oe
  | .read _ => l.rw && !l.oe && l.rs == some false
  | .poll8 => l.rw && !l.oe && l.rs == some false
  | .poll4Hi => l.rw && !l.oe && l.rs == some false
  | .poll4Lo => l.rw && !l.oe && l.rs == some false

/-- Every pulse of the list comes with its control lines set, and the list ends with RW = 0 and the bus an output (R135,
R136). -/
def linesSafe : Lines → List Prim → Bool
  | l, [] => !l.rw && l.oe
  | l, .line op :: rest => linesSafe (l.after op) rest
  | l, .pulse :: rest => l.allow .write && linesSafe l rest
  | l, .pulseRd part :: rest => l.allow (.read part) && linesSafe l rest
  | l, .poll8 :: rest => l.allow .poll8 && linesSafe l rest
  | l, .poll4 :: rest => l.allow .poll4Hi && linesSafe l rest
  | l, .wait _ :: rest => linesSafe l rest

/-- The control lines of a state. -/
def linesOf (s : State) : Lines := { rs := some s.rsQ, rw := s.rwQ, oe := s.oeQ }

/-- The length of the phase the delay counter is timing; a one-cycle primitive counts as one cycle (R101). -/
def curCycles (c : Config) : Cur → Nat
  | .line _ => 1
  | .wait k => delayCycles c k
  | .pulse _ ph => phaseCycles c ph

/-- `cur` is the high phase of a pulse. -/
def inHi : Cur → Bool
  | .pulse _ .hi => true
  | .pulse _ .su => false
  | .pulse _ .eh => false
  | .line _ => false
  | .wait _ => false

/-- The control lines suit the pulse under way, if one is. -/
def curAllowed (l : Lines) : Cur → Bool
  | .pulse kind _ => l.allow kind
  | .line _ => true
  | .wait _ => true

/-- The sequencer's part of a well-formed state: in IDLE the enable and the counter are 0 (R25, R115) and the bus is at rest
in the write direction (R136); in RUN the counter is inside its phase (R115), the enable is 1 exactly in the high phase
(R109), the primitives belong to the build (R117), every pulse has its control lines set (R135), and INIT has been accepted
(R220). -/
def seqOk (s : State) : Prop :=
  match s.seq with
  | .idle => s.eQ = false ∧ s.dly = 0 ∧ s.rwQ = false ∧ s.oeQ = true
  | .run cur rest =>
    s.dly < curCycles s.cfg cur ∧ s.eQ = inHi cur ∧ curIn s.cfg cur = true ∧ rest.all (primIn s.cfg) = true
      ∧ curAllowed (linesOf s) cur = true ∧ linesSafe (linesOf s) rest = true ∧ s.inited = true

/-- The well-formed states, in any conforming build. -/
structure StateOk (s : State) : Prop where
  /-- The sequencer's part. -/
  seq : seqOk s
  /-- A TIMED build holds RW at 0 and the direction at output (10_state.md R21, R117). -/
  timedLines : s.cfg.busy = .timed → s.rwQ = false ∧ s.oeQ = true
  /-- A 4-bit build holds DB3..DB0 at 0 (R21, R26). -/
  lowLines : s.cfg.width = .four → loNibble s.dbQ = 0
  /-- No error, no cause; an error, a cause of R221, so codes 6 and 7 never occur. -/
  cause : if s.errQ then 1 ≤ s.causeQ.toNat ∧ s.causeQ.toNat ≤ 5 else s.causeQ = 0
  /-- A TIMED build never samples the bus (R117). -/
  timedStat : s.cfg.busy = .timed → s.statQ = 0

/-! ## What a request sends -/

/-- The byte and the register select a request's rule gives it, whether WAIT(CLEAR) follows its write, and the line index
after its acceptance (R180, R184 to R186, R201 to R203). -/
structure Sent where
  val : Byte
  rsel : Bool
  settle : Bool
  line : BitVec 1
deriving DecidableEq, Repr

/-- What a legal request sends in a state; none for INIT, which sends a sequence, and for a GOTO that is not legal. -/
def sentBy (s : State) : Instr → Option Sent
  | .init => none
  | .cmd b => some { val := b, rsel := false, settle := false, line := s.lineIdx }
  | .data b => some { val := b, rsel := true, settle := false, line := s.lineIdx }
  | .clear => some { val := s.cfg.cmds.cmdClear, rsel := false, settle := true, line := 0 }
  | .home => some { val := s.cfg.cmds.cmdHome, rsel := false, settle := true, line := 0 }
  | .goto x y =>
    if y.toNat < s.cfg.lines then
      some { val := s.cfg.cmds.cmdSetDdram ||| (ddram s.cfg x y.toNat).zeroExtend 8, rsel := false, settle := false, line := s.lineIdx }
    else none
  | .putc c =>
    if c = s.cfg.chFf then some { val := s.cfg.cmds.cmdClear, rsel := false, settle := true, line := 0 }
    else if c = s.cfg.chNl then
      let l : BitVec 1 := if s.lineIdx = 0 then 1 else 0
      some { val := s.cfg.cmds.cmdSetDdram ||| (ddram s.cfg 0 l.toNat).zeroExtend 8, rsel := false, settle := false, line := l }
    else some { val := c, rsel := true, settle := false, line := s.lineIdx }

/-- The cycles of a request that sends one byte, with `m` poll samples in POLLED builds (R270). -/
def sentCycles (c : Config) (m : Nat) (settle : Bool) : Nat :=
  writeByteCycles c m + if settle then c.nClear else 0

/-! ## Bus events, by the cycle they come in -/

/-- What one enable pulse shows of a byte whose high nibble is on the lines in 4-bit builds (R69). -/
def shown (c : Config) (b : Byte) : BusData :=
  match c.width with
  | .eight => .byte b
  | .four => .nibble (hiNibble b)

/-- The write events of a logical byte whose first enable pulse begins in cycle `k` (R140 to R144). -/
def writeEvents (c : Config) (k : Nat) (rs : Bool) (b : Byte) : List (Nat × BusEvent) :=
  match c.width with
  | .eight => [(k + c.nSu + c.nEpw, .write rs (.byte b))]
  | .four =>
    [(k + c.nSu + c.nEpw, .write rs (.nibble (hiNibble b))),
      (k + pulseCycles c + 1 + c.nSu + c.nEpw, .write rs (.nibble (loNibble b)))]

/-- What the data lines hold after a logical byte (R105 to R107). -/
def busAfter (c : Config) (b : Byte) : Byte :=
  match c.width with
  | .eight => b
  | .four => loNibble b ++ (0 : Nibble)

/-- The display's answer to the `j`-th of some read pulses that follow one another, the first beginning `k` cycles from now
(R112, R113). -/
def answer (s : State) (k j : Nat) : Byte :=
  (inputAt s (k + j * pulseCycles s.cfg + (s.cfg.nSu + (s.cfg.nEpw - 1)))).lcdDbI

/-- The read events of `n` read pulses that follow one another from cycle `k` on (R69). -/
def readEvents (s : State) (k n : Nat) : List (Nat × BusEvent) :=
  (List.range n).map fun j =>
    (k + j * pulseCycles s.cfg + s.cfg.nSu + s.cfg.nEpw, .read false (answer s k j))

/-- The read pulses of one sample (R133, R134). -/
def pulsesPerSample (c : Config) : Nat :=
  match c.width with
  | .eight => 1
  | .four => 2

/-- The status byte the `j`-th sample of a poll assembles, the poll beginning `k` cycles from now (R56). -/
def sampledStatus (s : State) (k j : Nat) : Byte :=
  match s.cfg.width with
  | .eight => answer s k j
  | .four => hiNibble (answer s k (2 * j)) ++ hiNibble (answer s k (2 * j + 1))

/-- The poll that begins `k` cycles from now takes `b` busy samples and then one that is not busy (R131, R132). -/
def pollAnswered (s : State) (k b : Nat) : Prop :=
  (∀ j, j < b → busyFlag s.cfg (sampledStatus s k j) = true) ∧ busyFlag s.cfg (sampledStatus s k b) = false

/-- The events of a busy-polled logical byte whose first primitive begins in cycle `k`, with `b` busy samples (R141, R143). -/
def polledEvents (s : State) (k b : Nat) (rs : Bool) (v : Byte) : List (Nat × BusEvent) :=
  readEvents s (k + 3) (pulsesPerSample s.cfg * (b + 1))
    ++ writeEvents s.cfg (k + 3 + pulsesPerSample s.cfg * (b + 1) * pulseCycles s.cfg + 4) rs v

/-- The function sets of the mode-lock sequence, in order, as the display sees them (R162, R164). -/
def functionSets (c : Config) : List BusEvent :=
  match c.width with
  | .eight => List.replicate 3 (.write false (shown c c.cmds.fs8))
  | .four => List.replicate 3 (.write false (shown c c.cmds.fs8)) ++ [.write false (shown c c.cmds.switch4)]

/-- The cycles in which those events come, INIT being accepted in cycle 0 (R162, R164). -/
def functionSetCycles (c : Config) : List Nat :=
  let p1 := c.nPower + 3
  let p2 := p1 + pulseCycles c + c.nR1 + 1
  let p3 := p2 + pulseCycles c + c.nR2 + 1
  let p4 := p3 + pulseCycles c + c.nR3 + c.nTrail + 1
  match c.width with
  | .eight => [p1, p2, p3].map (· + c.nSu + c.nEpw)
  | .four => [p1, p2, p3, p4].map (· + c.nSu + c.nEpw)

/-- The four bytes of TAIL (R166). -/
def tailByte (c : Config) : Nat → Byte
  | 0 => c.cmds.fsFinal
  | 1 => c.cmds.dispOn
  | 2 => c.cmds.entryInc
  | _ => c.cmds.cmdClear

/-- The cycle before the `j`-th WriteByte of TAIL, whose polls take `b i` busy samples (R166, R167). -/
def tailStart (c : Config) (b : Nat → Nat) : Nat → Nat
  | 0 => modeLockCycles c
  | j + 1 => tailStart c b j + writeByteCycles c (b j + 1)

/-! ## Acceptance -/

/-- The registers no acceptance of a legal request writes (R76), and what drives the ports. -/
structure AcceptanceKeeps (s t : State) : Prop where
  cfg : t.cfg = s.cfg
  rwQ : t.rwQ = s.rwQ
  eQ : t.eQ = s.eQ
  dbQ : t.dbQ = s.dbQ
  statQ : t.statQ = s.statQ
  errQ : t.errQ = s.errQ
  causeQ : t.causeQ = s.causeQ
  inp : t.inp = s.inp
  tape : t.tape = s.tape
  tick : t.tick = s.tick

/-- `t` is in the first cycle of `WriteByte(val, rsel)` with `after` behind it: the first primitive's write is made, and the
others are left (R76, R101, R140 to R143). -/
def StartsWrite (s t : State) (after : List Prim) : Prop :=
  t.dly = 0 ∧
  match s.cfg.width, s.cfg.busy with
  | .eight, .timed =>
    t.seq = .run (.line (.setRs .rsel)) ([.line (.put8 .val), .pulse, .wait .byte] ++ after)
      ∧ t.rsQ = t.rselQ ∧ t.oeQ = s.oeQ
  | .eight, .polled =>
    t.seq = .run (.line (.setDir .input)) ([.line (.setRw true), .line (.setRs (.const false)), .poll8,
        .line (.setDir .output), .line (.setRw false), .line (.setRs .rsel), .line (.put8 .val), .pulse] ++ after)
      ∧ t.rsQ = s.rsQ ∧ t.oeQ = false
  | .four, .timed =>
    t.seq = .run (.line (.setRs .rsel)) ([.line (.putHi .val), .pulse, .line (.putLo .val), .pulse, .wait .byte] ++ after)
      ∧ t.rsQ = t.rselQ ∧ t.oeQ = s.oeQ
  | .four, .polled =>
    t.seq = .run (.line (.setDir .input)) ([.line (.setRw true), .line (.setRs (.const false)), .poll4,
        .line (.setDir .output), .line (.setRw false), .line (.setRs .rsel), .line (.putHi .val), .pulse, .line (.putLo .val),
        .pulse] ++ after)
      ∧ t.rsQ = s.rsQ ∧ t.oeQ = false

/-- The illegal-request action and nothing else (R222). -/
def afterIllegal (c : Cause) (s : State) : State :=
  { s with errQ := true, causeQ := if s.errQ then s.causeQ else causeCode c }

/-! ## Observing a state -/

/-- The four lines beside the enable: RS, RW, the data and the direction. -/
def SameLines (s t : State) : Prop :=
  t.rsQ = s.rsQ ∧ t.rwQ = s.rwQ ∧ t.dbQ = s.dbQ ∧ t.oeQ = s.oeQ

/-- The build's poll (R133, R134). -/
def pollKind (c : Config) : PulseKind :=
  match c.width with
  | .eight => .poll8
  | .four => .poll4Hi

end Sys2Proof.Safety
end

