-- ==== Sys2Proof/Certificates/Slice0/Obligations.lean ====
section
/-! DEFINITION. The statements for the provers. -/
open Sys2Proof Sys2Proof.Machine Sys2Proof.Safety

/-! ## Encoding -/

/-- R72, with the words of R85, R180, R202, R203, R184, R185, R200: the decoder reads each spec word as its request. -/
def Obligations.SpecWordsDecode : Prop :=
  decode 0x0000 = .ok .init ∧ decode 0x100F = .ok (.cmd 0x0F) ∧ decode 0x200A = .ok (.data 0x0A) ∧ decode 0x3000 = .ok .clear
    ∧ decode 0x4000 = .ok .home ∧ decode 0x5405 = .ok (.goto 5 1) ∧ decode 0x54FF = .ok (.goto 255 1)
    ∧ decode 0x5C00 = .ok (.goto 0 3) ∧ decode 0x6041 = .ok (.putc 0x41) ∧ decode 0x6000 = .ok (.putc 0x00)

/-- R70, R72: decoding the word of a request gives the request, for every request and every operand. -/
def Obligations.DecodeOfEncode : Prop :=
  ∀ i : Instr, decode (encode i) = .ok i

/-- R74: a word is at most one request, and the request's word is that word. -/
def Obligations.EncodeOfDecode : Prop :=
  ∀ (w : ReqWord) (i : Instr), decode w = .ok i → encode i = w

/-- R73, R74, R220 checks 1 and 2: which words are no request, and by which name. -/
def Obligations.DecoderRejects : Prop :=
  ∀ w : ReqWord,
    (decode w = .error .reservedOpcode ↔ 7 ≤ (fieldOp w).toNat) ∧
    (decode w = .error .nonzeroField ↔
      (fieldOp w).toNat < 7 ∧ (fieldZ w ≠ 0 ∨ (fieldOp w ≠ 5 ∧ fieldY w ≠ 0) ∨
        ((fieldOp w = 0 ∨ fieldOp w = 3 ∨ fieldOp w = 4) ∧ fieldArg w ≠ 0)))

/-- R85: `word = (OP << 12) | (y << 10) | ARG`. -/
def Obligations.AssemblyFormula : Prop :=
  encode .init = 0x0 <<< 12 ∧ encode .clear = 0x3 <<< 12 ∧ encode .home = 0x4 <<< 12 ∧
  (∀ b : Byte, encode (.cmd b) = (0x1 : ReqWord) <<< 12 ||| b.zeroExtend 16) ∧
  (∀ b : Byte, encode (.data b) = (0x2 : ReqWord) <<< 12 ||| b.zeroExtend 16) ∧
  (∀ (x : Byte) (y : BitVec 2),
    encode (.goto x y) = (0x5 : ReqWord) <<< 12 ||| (y.zeroExtend 16 : ReqWord) <<< 10 ||| x.zeroExtend 16) ∧
  (∀ c : Byte, encode (.putc c) = (0x6 : ReqWord) <<< 12 ||| c.zeroExtend 16)

/-- R85: the assembler takes an operand exactly when it fits its field. -/
def Obligations.AssemblerChecksOperands : Prop :=
  ∀ n m : Nat,
    ((assemble (.cmd (.num n))).isSome ↔ n ≤ 255) ∧ ((assemble (.data (.num n))).isSome ↔ n ≤ 255) ∧
    ((assemble (.putc (.num n))).isSome ↔ n ≤ 255) ∧ ((assemble (.goto (.num n) (.num m))).isSome ↔ n ≤ 255 ∧ m ≤ 3)

/-- R86: PUTS expands to one PUTC a byte, stopping before the first 0x00; an empty string expands to no request. The first
clause, that a list with no 0x00 ends at its end, is the model's choice (log 19). -/
def Obligations.PutsExpandsToPutc : Prop :=
  (∀ s : List Byte, 0 ∉ s → assemble (.puts s) = some (s.map fun b => (0x6000 : ReqWord) ||| b.zeroExtend 16)) ∧
  (∀ s r : List Byte, 0 ∉ s →
    assemble (.puts (s ++ 0 :: r)) = some (s.map fun b => (0x6000 : ReqWord) ||| b.zeroExtend 16)) ∧
  assemble (.puts []) = some []

/-- R88: the requests of the calls of the source's interface. -/
def Obligations.ApiMapsToRequests : Prop :=
  assemble (ApiCall.line .initApi) = some [encode .init] ∧ assemble (ApiCall.line .clear) = some [encode .clear] ∧
  assemble (ApiCall.line .home) = some [encode .home] ∧
  (∀ (x : Byte) (y : BitVec 2), assemble (ApiCall.line (.goto x y)) = some [encode (.goto x y)]) ∧
  (∀ c : Byte, assemble (ApiCall.line (.putChar c)) = some [encode (.putc c)]) ∧
  (∀ s : List Byte, assemble (ApiCall.line (.putString s)) = assemble (.puts s)) ∧
  (∀ b : Byte, assemble (ApiCall.line (.sendCommand b)) = some [encode (.cmd b)]) ∧
  (∀ b : Byte, assemble (ApiCall.line (.sendData b)) = some [encode (.data b)]) ∧
  assemble .newline = some [encode (.putc 0x0A)] ∧ assemble .formfeed = some [encode (.putc 0x0C)]

/-! ## The step -/

/-- R75, R76: a step in IDLE with a request presented is `exec` of the decoded request, and then the input levels of the
next cycle come (the model's own fields, log 4). -/
def Obligations.StepRunsDecodedRequest : Prop :=
  ∀ (s : State) (i : Instr), s.cfg.conforming = true → s.inp.rst = false → s.seq = .idle → s.inp.reqValid = true →
    decode s.inp.reqWord = .ok i →
    ∃ t, exec i s = .next t ∧ step s = .next { t with inp := inputAt t 1, tape := t.tape.tail, tick := t.tick + 1 }

/-- The model's convention of log 5: the placed word is on the request port, the block is ready for it, and no register
beside the sequencer and its counter is touched. -/
def Obligations.PlacedWordIsPresented : Prop :=
  ∀ (s : State) (w : Nat), w < 65536 →
    s.withFetchWord 16 w = { s with
      seq := .idle, dly := 0,
      inp := { s.inp with rst := false, reqValid := true, reqWord := BitVec.ofNat 16 w } } ∧
    reqReady (s.withFetchWord 16 w) = true

/-- R75, R114: in IDLE, without a request and without a reset, every register holds. -/
def Obligations.IdleHolds : Prop :=
  ∀ s : State, s.cfg.conforming = true → s.inp.rst = false → s.seq = .idle → s.inp.reqValid = false →
    step s = .next { s with inp := inputAt s 1, tape := s.tape.tail, tick := s.tick + 1 }

/-- R220, R221, R222, R225: an illegal request sets the sticky status to the cause of the first check that fails, and
changes nothing else; the block stays IDLE. A request that passes every check is accepted, whatever the error status is, and
the status keeps its value. `check` lists the checks of R220 on the word as presented. -/
def Obligations.IllegalRequestAction : Prop :=
  ∀ s : State, s.cfg.conforming = true → s.inp.rst = false → s.seq = .idle → s.inp.reqValid = true →
    (∀ c : Cause, check s.cfg s.inp.reqWord s.inited = some c →
      step s = .next { s with
        errQ := true, causeQ := if s.errQ then s.causeQ else causeCode c, inp := inputAt s 1,
        tape := s.tape.tail, tick := s.tick + 1 }) ∧
    (check s.cfg s.inp.reqWord s.inited = none →
      ∃ t, step s = .next t ∧ isIdle t = false ∧ t.inited = true ∧ t.errQ = s.errQ ∧ t.causeQ = s.causeQ)

/-- R60, R68, R75: while a request runs, the request port does not matter. -/
def Obligations.RequestPortIgnoredInRun : Prop :=
  ∀ (s : State) (cur : Cur) (rest : List Prim) (v : Bool) (w : ReqWord), s.seq = .run cur rest → s.inp.rst = false →
    step { s with inp := { s.inp with reqValid := v, reqWord := w } } = step s

/-- R112, R117, R134, U19: `lcd_db_i` matters only in a sampling cycle; there, its low half does not matter in a 4-bit
build, and a TIMED build has no such cycle. -/
def Obligations.DisplayIgnoredOutsideSampling : Prop :=
  ∀ (s : State) (d : Byte),
    (sampling s = false → step { s with inp := { s.inp with lcdDbI := d } } = step s) ∧
    (StateOk s → s.cfg.width = .four → hiNibble d = hiNibble s.inp.lcdDbI →
      step { s with inp := { s.inp with lcdDbI := d } } = step s) ∧
    (StateOk s → s.cfg.busy = .timed → sampling s = false)

/-- R10, R11, R12, R116, U7: a build that does not conform is refused, a build that conforms always answers a next state; no step
faults. R116 speaks of configuration time; that every step of such a build refuses, and that other lines, columns or bases
are such a build, is the model's reading (logs 6 and 9). -/
def Obligations.OnlyNonConformingBuildsStop : Prop :=
  ∀ s : State,
    (s.cfg.conforming = false → step s = .refused .nonConformingBuild) ∧
    (s.cfg.conforming = true → ∃ t, step s = .next t)

/-! ## Acceptance, request by request -/

/-- R160: INIT's acceptance, from `inited = 0`, in a build whose power-on wait has a cycle (R12). -/
def Obligations.InitAccepted : Prop :=
  ∀ s : State, s.inited = false → 1 ≤ s.cfg.nPower →
    ∃ t, exec .init s = .next t ∧ t.inited = true ∧ t.lineIdx = 0 ∧ t.valQ = 0x00 ∧ t.rselQ = false ∧ AcceptanceKeeps s t
      ∧ t.rsQ = s.rsQ ∧ t.oeQ = s.oeQ ∧ t.dly = s.cfg.nPower - 1
      ∧ ∃ rest, t.seq = .run (.wait .power) rest ∧ .wait .power :: rest = initSequence s.cfg

/-- R202: CMD's acceptance. -/
def Obligations.CmdAccepted : Prop :=
  ∀ (s : State) (b : Byte), s.inited = true →
    ∃ t, exec (.cmd b) s = .next t ∧ t.valQ = b ∧ t.rselQ = false ∧ t.lineIdx = s.lineIdx ∧ t.inited = true
      ∧ AcceptanceKeeps s t ∧ StartsWrite s t []

/-- R203: DATA's acceptance; no byte is special. -/
def Obligations.DataAccepted : Prop :=
  ∀ (s : State) (b : Byte), s.inited = true →
    ∃ t, exec (.data b) s = .next t ∧ t.valQ = b ∧ t.rselQ = true ∧ t.lineIdx = s.lineIdx ∧ t.inited = true
      ∧ AcceptanceKeeps s t ∧ StartsWrite s t []

/-- R184, R187, R188: CLEAR's acceptance; WAIT(CLEAR) ends the expansion in all four builds. -/
def Obligations.ClearAccepted : Prop :=
  ∀ s : State, s.inited = true →
    ∃ t, exec .clear s = .next t ∧ t.valQ = s.cfg.cmds.cmdClear ∧ t.rselQ = false ∧ t.lineIdx = 0 ∧ t.inited = true
      ∧ AcceptanceKeeps s t ∧ StartsWrite s t [.wait .clear]

/-- R185, R187, R188: HOME's acceptance. -/
def Obligations.HomeAccepted : Prop :=
  ∀ s : State, s.inited = true →
    ∃ t, exec .home s = .next t ∧ t.valQ = s.cfg.cmds.cmdHome ∧ t.rselQ = false ∧ t.lineIdx = 0 ∧ t.inited = true
      ∧ AcceptanceKeeps s t ∧ StartsWrite s t [.wait .clear]

/-- R180 to R183, R190: GOTO's acceptance, for y < LINES and every x; `line_idx` keeps its value. LINES and LINE_BASE are those
of R10 and R11. -/
def Obligations.GotoAccepted : Prop :=
  ∀ (s : State) (x : Byte) (y : BitVec 2), s.cfg.geometryOk = true → s.inited = true →
    y.toNat < s.cfg.lines →
    ∃ t, exec (.goto x y) s = .next t
      ∧ t.valQ = s.cfg.cmds.cmdSetDdram ||| BitVec.ofNat 8 (((if y = 0 then 0x00 else 0x40) + x.toNat) % 128)
      ∧ t.rselQ = false ∧ t.lineIdx = s.lineIdx ∧ t.inited = true ∧ AcceptanceKeeps s t ∧ StartsWrite s t []

/-- R201, R186, R204: PUTC's acceptance, the three cases in the order of R201. LINES and LINE_BASE are those of R10 and R11. -/
def Obligations.PutcAccepted : Prop :=
  ∀ (s : State) (c : Byte), s.cfg.geometryOk = true → s.inited = true →
    ∃ t, exec (.putc c) s = .next t ∧ t.inited = true ∧ AcceptanceKeeps s t ∧
      if c = s.cfg.chFf then
        t.valQ = s.cfg.cmds.cmdClear ∧ t.rselQ = false ∧ t.lineIdx = 0 ∧ StartsWrite s t [.wait .clear]
      else if c = s.cfg.chNl then
        t.lineIdx = (if s.lineIdx = 0 then 1 else 0)
          ∧ t.valQ = s.cfg.cmds.cmdSetDdram ||| (if s.lineIdx = 0 then 0x40 else 0x00) ∧ t.rselQ = false ∧ StartsWrite s t []
      else
        t.valQ = c ∧ t.rselQ = true ∧ t.lineIdx = s.lineIdx ∧ StartsWrite s t []

/-- R160, R169, R180, R220 checks 3 and 4, R222: where a request takes the illegal-request action in its meaning. -/
def Obligations.IllegalInState : Prop :=
  (∀ s : State, s.inited = true → exec .init s = .next (afterIllegal .reInit s)) ∧
  (∀ (s : State) (i : Instr), s.inited = false → i ≠ .init → exec i s = .next (afterIllegal .noInit s)) ∧
  (∀ (s : State) (x : Byte) (y : BitVec 2), s.inited = true → s.cfg.lines ≤ y.toNat →
    exec (.goto x y) s = .next (afterIllegal .lineRange s))

/-! ## Runs of whole requests

Their cycle numbers are the reference timing of R101, so they ask for cycles that are `steady`: every cycle of a build that
takes no extra ones is, and in a build that takes some, those the implementation leaves as they are. What extra cycles do to a
run is StretchedRunsHaveReferenceEvents. -/

/-- R140, R142, R144, R145, R180 to R186, R200 to R204, R270, R271 in a TIMED build: a legal request other than INIT,
accepted in cycle 0, makes exactly the write events of its byte and leaves the block IDLE in cycle K + 1. -/
def Obligations.TimedRequestRuns : Prop :=
  ∀ (s : State) (i : Instr) (p : Sent), StateOk s → s.cfg.conforming = true → s.cfg.busy = .timed → s.inited = true →
    s.seq = .idle → s.inp.reqValid = true → decode s.inp.reqWord = .ok i → sentBy s i = some p →
    steady s (sentCycles s.cfg 1 p.settle + 1) →
    ∃ t, trace (sentCycles s.cfg 1 p.settle + 1) s = some (writeEvents s.cfg 3 p.rsel p.val, t) ∧ StateOk t ∧ t.seq = .idle
      ∧ t.rsQ = p.rsel ∧ t.dbQ = busAfter s.cfg p.val ∧ t.lineIdx = p.line ∧ t.valQ = p.val ∧ t.rselQ = p.rsel
      ∧ t.inited = true ∧ t.statQ = s.statQ ∧ t.errQ = s.errQ ∧ t.causeQ = s.causeQ ∧ t.cfg = s.cfg

/-- R131 to R136, R141, R143, R144, R145, R270, R271 in a POLLED build: the same, after a poll that takes `b` busy samples
and one that is not busy; `b` is any number. -/
def Obligations.PolledRequestRuns : Prop :=
  ∀ (s : State) (i : Instr) (p : Sent) (b : Nat), StateOk s → s.cfg.conforming = true → s.cfg.busy = .polled →
    s.inited = true → s.seq = .idle → s.inp.reqValid = true → decode s.inp.reqWord = .ok i → sentBy s i = some p →
    steady s (sentCycles s.cfg (b + 1) p.settle + 1) → pollAnswered s 4 b →
    ∃ t, trace (sentCycles s.cfg (b + 1) p.settle + 1) s = some (polledEvents s 1 b p.rsel p.val, t) ∧ StateOk t
      ∧ t.seq = .idle ∧ t.rsQ = p.rsel ∧ t.rwQ = false ∧ t.oeQ = true ∧ t.dbQ = busAfter s.cfg p.val
      ∧ t.statQ = sampledStatus s 4 b ∧ t.lineIdx = p.line ∧ t.valQ = p.val ∧ t.rselQ = p.rsel ∧ t.inited = true
      ∧ t.errQ = s.errQ ∧ t.causeQ = s.causeQ ∧ t.cfg = s.cfg

/-- R160 to R168 in a TIMED build: INIT, accepted in cycle 0, makes the function sets, then the four bytes of TAIL, each
in its cycle, and leaves the block IDLE and initialised in cycle K + 1. -/
def Obligations.TimedInitRuns : Prop :=
  ∀ s : State, StateOk s → s.cfg.conforming = true → s.cfg.busy = .timed → s.inited = false → s.seq = .idle →
    s.inp.reqValid = true → s.inp.reqWord = 0x0000 → steady s (initCycles s.cfg 1 1 1 1 + 1) →
    ∃ t, trace (initCycles s.cfg 1 1 1 1 + 1) s = some
        ((functionSetCycles s.cfg).zip (functionSets s.cfg)
          ++ (List.range 4).flatMap (fun j =>
            writeEvents s.cfg (tailStart s.cfg (fun _ => 0) j + 3) false (tailByte s.cfg j)), t)
      ∧ StateOk t ∧ t.seq = .idle ∧ t.inited = true ∧ t.rsQ = false ∧ t.dbQ = busAfter s.cfg s.cfg.cmds.cmdClear
      ∧ t.lineIdx = 0 ∧ t.valQ = 0 ∧ t.rselQ = false ∧ t.errQ = s.errQ ∧ t.causeQ = s.causeQ ∧ t.cfg = s.cfg

/-- R160 to R168 in a POLLED build: the same; the mode-lock sequence reads nothing, and the `j`-th TAIL write polls with
`b j` busy samples, any numbers. -/
def Obligations.PolledInitRuns : Prop :=
  ∀ (s : State) (b : Nat → Nat), StateOk s → s.cfg.conforming = true → s.cfg.busy = .polled → s.inited = false →
    s.seq = .idle → s.inp.reqValid = true → s.inp.reqWord = 0x0000 →
    steady s (initCycles s.cfg (b 0 + 1) (b 1 + 1) (b 2 + 1) (b 3 + 1) + 1) →
    (∀ j, j < 4 → pollAnswered s (tailStart s.cfg b j + 4) (b j)) →
    ∃ t, trace (initCycles s.cfg (b 0 + 1) (b 1 + 1) (b 2 + 1) (b 3 + 1) + 1) s = some
        ((functionSetCycles s.cfg).zip (functionSets s.cfg)
          ++ (List.range 4).flatMap (fun j =>
            polledEvents s (tailStart s.cfg b j + 1) (b j) false (tailByte s.cfg j)), t)
      ∧ StateOk t ∧ t.seq = .idle ∧ t.inited = true ∧ t.rsQ = false ∧ t.rwQ = false ∧ t.oeQ = true
      ∧ t.dbQ = busAfter s.cfg s.cfg.cmds.cmdClear ∧ t.statQ = sampledStatus s (tailStart s.cfg b 3 + 4) (b 3)
      ∧ t.lineIdx = 0 ∧ t.valQ = 0 ∧ t.rselQ = false ∧ t.errQ = s.errQ ∧ t.causeQ = s.causeQ ∧ t.cfg = s.cfg

/-- R101, U21: an extra cycle, which only a build that stretches takes and only while a request runs: every register holds, and
there is no bus event. That the counter holds too is the model's choice (log 7). -/
def Obligations.ExtraCycleHolds : Prop :=
  ∀ (s : State) (cur : Cur) (rest : List Prim), s.cfg.conforming = true → s.inp.rst = false → s.seq = .run cur rest →
    s.cfg.stretches = true → s.inp.extra = true →
    ∃ t, step s = .next t ∧ t = { s with inp := inputAt s 1, tape := s.tape.tail, tick := s.tick + 1 } ∧
      busEvent s t = none

/-- R101: a cycle that is no extra one is a cycle of the reference timing, with its event. -/
def Obligations.OtherCyclesAreReference : Prop :=
  ∀ s t : State, extraCycle s = false → step s = .next t →
    step (reference s) = .next (reference t) ∧ busEvent (reference s) (reference t) = busEvent s t

/-- R101, R161: "provided the order of bus events is unchanged": the bus events of a run with extra cycles are, in order and
value, those of a run in the reference timing that meets some of the same input levels in the same order, and both leave every
register alike. -/
def Obligations.StretchedRunsHaveReferenceEvents : Prop :=
  ∀ (n : Nat) (s t : State) (es : List (Nat × BusEvent)), trace n s = some (es, t) →
    ∃ (i : Inputs) (tape : List Inputs) (es' : List (Nat × BusEvent)) (t' : State),
      (i :: tape).Sublist ((List.range (n + 1)).map (inputAt s)) ∧
      trace tape.length { reference s with inp := i, tape := tape } = some (es', t') ∧
      es'.map Prod.snd = es.map Prod.snd ∧ t' = { reference t with inp := t'.inp, tape := t'.tape, tick := t'.tick }

/-- R131, R228: a poll that never sees not-busy goes on for ever: after any number of cycles the block is still in RUN, has
made read events only, and holds the bus in the read direction. -/
def Obligations.BusyPollNeverEnds : Prop :=
  ∀ (s : State) (rest : List Prim) (n : Nat), s.cfg.conforming = true → s.eQ = false → s.rsQ = false → s.rwQ = true →
    s.oeQ = false → steady s n → (∀ j, j < n → busyFlag s.cfg (sampledStatus s 0 j) = true) →
    ∃ es t, trace n (startPulse (pollKind s.cfg) rest s) = some (es, t) ∧ isIdle t = false ∧ reqReady t = false
      ∧ initDone t = false ∧ t.rsQ = false ∧ t.rwQ = true ∧ t.oeQ = false ∧ t.dbQ = s.dbQ ∧ t.errQ = s.errQ
      ∧ t.causeQ = s.causeQ
      ∧ ∀ e ∈ es, ∃ d, e.2 = .read false d

/-- R168: from reset, whatever the host presents and the display answers, the first bus events are the function sets of the
mode-lock sequence, in order, and nothing comes before them. -/
def Obligations.FunctionSetsComeFirst : Prop :=
  ∀ (c : Config) (i : Inputs) (tape : List Inputs) (n : Nat) (es : List (Nat × BusEvent)) (t : State),
    noReset { State.resetOf c with inp := i, tape := tape } n →
    trace n { State.resetOf c with inp := i, tape := tape } = some (es, t) →
    (es.map Prod.snd).take (functionSets c).length <+: functionSets c

/-! ## Reset -/

/-- R250, R253: at an edge with `rst = 1` every register takes its reset value, from any state; no request is accepted. -/
def Obligations.ResetLoadsResetValues : Prop :=
  ∀ s : State, s.cfg.conforming = true → s.inp.rst = true →
    reqReady s = false ∧
    ∃ t, step s = .next t ∧ t.rsQ = false ∧ t.rwQ = false ∧ t.eQ = false ∧ t.dbQ = 0x00 ∧ t.oeQ = true ∧ t.statQ = 0x00
      ∧ t.lineIdx = 0 ∧ t.inited = false ∧ t.errQ = false ∧ t.causeQ = 0 ∧ t.valQ = 0x00 ∧ t.rselQ = false ∧ t.seq = .idle
      ∧ t.dly = 0 ∧ t.cfg = s.cfg

/-- R250, R251: what the ports show right after reset, in any build. -/
def Obligations.OutputsAfterReset : Prop :=
  ∀ c : Config, outputs (State.resetOf c) =
    { reqReady := true, initDone := false, err := false, errCause := 0, lineO := 0, lcdRs := false, lcdRw := false,
      lcdE := false, lcdDbO := 0x00, lcdDbOe := true }

/-! ## Invariants and whole-machine rules -/

/-- R21, R25, R26, R109, R115, R117, R135, R136, R221: every step from a well-formed state leads to a well-formed state. -/
def Obligations.StepKeepsStateOk : Prop :=
  ∀ s t : State, StateOk s → step s = .next t → StateOk t

/-- R250: the reset state is well formed, in any build. -/
def Obligations.StateOkAtReset : Prop :=
  (∀ c : Config, StateOk (State.resetOf c)) ∧ StateOk State.reset

/-- R3, R10, R36: no step changes a build-time parameter. -/
def Obligations.BuildNeverChanges : Prop :=
  ∀ s t : State, step s = .next t → t.cfg = s.cfg

/-- R109: the enable is 1 only in the high phase of a pulse, and RS, RW, the direction and the data change only while it is
0; they hold through the high phase and the hold phase after it. -/
def Obligations.LinesHoldAroundPulse : Prop :=
  ∀ s t : State, StateOk s → s.inp.rst = false → step s = .next t →
    (t.eQ = true ↔ ∃ kind rest, t.seq = .run (.pulse kind .hi) rest) ∧
    ((s.eQ = true ∨ t.eQ = true) → SameLines s t) ∧
    (∀ kind rest, t.seq = .run (.pulse kind .eh) rest → SameLines s t)

/-- R114: an output register changes only in a cycle whose primitive writes it. -/
def Obligations.OutputsHold : Prop :=
  ∀ s t : State, StateOk s → s.inp.rst = false → step s = .next t →
    match t.seq with
    | .idle => SameLines s t ∧ t.eQ = s.eQ
    | .run (.wait _) _ => SameLines s t ∧ t.eQ = s.eQ
    | .run (.pulse _ _) _ => SameLines s t
    | .run (.line op) _ =>
      t.eQ = s.eQ ∧ ((∀ v, op ≠ .setRs v) → t.rsQ = s.rsQ) ∧ ((∀ v, op ≠ .setRw v) → t.rwQ = s.rwQ)
        ∧ ((∀ d, op ≠ .setDir d) → t.oeQ = s.oeQ)
        ∧ ((∀ b, op ≠ .put8 b ∧ op ≠ .putHi b ∧ op ≠ .putLo b) → t.dbQ = s.dbQ)

/-- R29, R183: the line index changes only at the acceptance of INIT, CLEAR, HOME, PUTC CH_FF or PUTC CH_NL, or at reset. -/
def Obligations.LineIndexWriters : Prop :=
  ∀ s t : State, s.inp.rst = false → step s = .next t → t.lineIdx ≠ s.lineIdx →
    s.seq = .idle ∧ s.inp.reqValid = true ∧ ∃ i, decode s.inp.reqWord = .ok i ∧
      (i = .init ∨ i = .clear ∨ i = .home ∨ i = .putc s.cfg.chFf ∨ i = .putc s.cfg.chNl)

/-- R30, R31, R225: only reset clears `inited`, `err_q` and `cause_q`, and the first cause is kept; only an accepted INIT
sets `inited`. -/
def Obligations.StatusUntilReset : Prop :=
  ∀ s t : State, s.inp.rst = false → step s = .next t →
    (s.inited = true → t.inited = true) ∧
    (s.errQ = true → t.errQ = true ∧ t.causeQ = s.causeQ) ∧
    (s.inited = false → t.inited = true → s.seq = .idle ∧ s.inp.reqValid = true ∧ decode s.inp.reqWord = .ok .init) ∧
    (s.errQ = false → t.errQ = true → s.seq = .idle ∧ s.inp.reqValid = true ∧ (check s.cfg s.inp.reqWord s.inited).isSome = true)

/-- R69, R110, R135, R136: the block makes a write event only with RW low and the bus an output, and a read event only with
RW high, the bus an input and RS low; only a POLLED build makes one; and only a reset makes one without a sample, which is
the model's form of it (log 11). -/
def Obligations.EventsHaveTheirDirection : Prop :=
  ∀ s t : State, StateOk s → step s = .next t →
    (∀ rs v, busEvent s t = some (.write rs v) → rs = s.rsQ ∧ s.rwQ = false ∧ s.oeQ = true ∧ v = busData s) ∧
    (∀ rs d, busEvent s t = some (.read rs d) →
      rs = false ∧ s.rwQ = true ∧ s.oeQ = false ∧ d = s.inp.lcdDbI ∧ sampling s = true ∧ s.cfg.busy = .polled) ∧
    (∀ rs, busEvent s t = some (.readCut rs) →
      rs = false ∧ s.rwQ = true ∧ s.oeQ = false ∧ s.inp.rst = true ∧ sampling s = false ∧ s.cfg.busy = .polled)

/-- R69, R112, R250 (and vector V10.2): a reset in the high phase of a pulse drops the enable, and the pulse still has its
event, with the values of the cycle before; a read pulse's event has a sample exactly if that cycle was the phase's last. That
a read pulse cut before it has an event without a value is the model's choice (log 11). -/
def Obligations.ResetCutsPulse : Prop :=
  ∀ (s : State) (kind : PulseKind) (rest : List Prim), StateOk s → s.cfg.conforming = true → s.inp.rst = true →
    s.seq = .run (.pulse kind .hi) rest →
    ∃ t, step s = .next t ∧ t.eQ = false ∧ busEvent s t = some (
      if (samplePart kind).isSome then
        if s.dly = 0 then .read false s.inp.lcdDbI else .readCut false
      else .write s.rsQ (busData s))

/-! ## Primitives -/

/-- R102 to R107, R54, R55: what each one-cycle primitive makes of its register, from its first cycle on. -/
def Obligations.LinePrimitives : Prop :=
  ∀ (s : State) (rest : List Prim),
    (∀ v, (load (.line (.setRs (.const v)) :: rest) s).rsQ = v) ∧
    (load (.line (.setRs .rsel) :: rest) s).rsQ = s.rselQ ∧
    (∀ v, (load (.line (.setRw v) :: rest) s).rwQ = v) ∧
    (load (.line (.setDir .output) :: rest) s).oeQ = true ∧ (load (.line (.setDir .input) :: rest) s).oeQ = false ∧
    (load (.line (.put8 .val) :: rest) s).dbQ = s.valQ ∧ (∀ b, (load (.line (.put8 (.const b)) :: rest) s).dbQ = b) ∧
    (∀ (b : Byte) (i : Nat), i < 4 →
      (load (.line (.putHi (.const b)) :: rest) s).dbQ.getLsbD (4 + i) = b.getLsbD (4 + i) ∧
      (load (.line (.putLo (.const b)) :: rest) s).dbQ.getLsbD (4 + i) = b.getLsbD i ∧
      (load (.line (.putHi (.const b)) :: rest) s).dbQ.getLsbD i = s.dbQ.getLsbD i ∧
      (load (.line (.putLo (.const b)) :: rest) s).dbQ.getLsbD i = s.dbQ.getLsbD i)

/-- R101: a one-cycle primitive takes one cycle, and the primitive after it begins in the next. -/
def Obligations.LinePrimitiveTakesOneCycle : Prop :=
  ∀ (s t : State) (op : LineOp) (rest : List Prim), s.cfg.conforming = true → steady s 1 →
    t = load (.line op :: rest) s →
    step t = .next { load rest t with inp := inputAt s 1, tape := s.tape.tail, tick := s.tick + 1 }

/-- R108, R109: in cycle `j` of a pulse the enable is 1 exactly in the high phase, and every other output holds. -/
def Obligations.PulseWaveform : Prop :=
  ∀ (s : State) (kind : PulseKind) (rest : List Prim) (j : Nat), s.cfg.conforming = true → s.eQ = false →
    steady s j → j < pulseCycles s.cfg →
    ∃ es t, trace j (startPulse kind rest s) = some (es, t) ∧
      (t.eQ = true ↔ s.cfg.nSu ≤ j ∧ j < s.cfg.nSu + s.cfg.nEpw) ∧ SameLines s t

/-- R111, R115: in cycle `j` of WAIT(k) every register holds and the counter is `N - 1 - j`; after N_k cycles the next
primitive begins. With N_k = 0 it begins at once. -/
def Obligations.WaitCountsDown : Prop :=
  ∀ (s : State) (k : Delay) (rest : List Prim), s.cfg.conforming = true → s.eQ = false →
    steady s (delayCycles s.cfg k) →
    (∀ j, j < delayCycles s.cfg k → ∃ t, trace j (load (.wait k :: rest) s) = some ([], t) ∧
      t.seq = .run (.wait k) rest ∧ t.dly = delayCycles s.cfg k - 1 - j ∧ t.eQ = false ∧ SameLines s t) ∧
    trace (delayCycles s.cfg k) (load (.wait k :: rest) s)
      = some ([], load rest { s with
          inp := inputAt s (delayCycles s.cfg k), tape := s.tape.drop (delayCycles s.cfg k),
          tick := s.tick + delayCycles s.cfg k })

/-- R132, R133, R134: after the last cycle of a sample's last read pulse, the poll takes another sample exactly when the busy
flag of the assembled status is 1. -/
def Obligations.PollTestDecides : Prop :=
  ∀ (s : State) (kind : PulseKind) (rest : List Prim), s.cfg.conforming = true → steady s 1 →
    (kind = .poll8 ∨ kind = .poll4Lo) → s.seq = .run (.pulse kind .eh) rest → s.dly = 0 →
    step s = .next { (if s.statQ.getLsbD s.cfg.busyBit.val then
        startPulse (if kind = .poll8 then .poll8 else .poll4Hi) rest s else load rest s) with
      inp := inputAt s 1, tape := s.tape.tail, tick := s.tick + 1 }

/-- R56, R110: what the two read pulses of a 4-bit sample make of the status register, and the one of an 8-bit sample. -/
def Obligations.StatusIsAssembled : Prop :=
  ∀ stat d h l : Byte,
    sampleInto .full stat d = d ∧
    hiNibble (sampleInto .lo (sampleInto .hi stat h) l) = hiNibble h ∧
    loNibble (sampleInto .lo (sampleInto .hi stat h) l) = hiNibble l ∧
    loNibble (sampleInto .hi stat h) = loNibble stat ∧ hiNibble (sampleInto .lo stat l) = hiNibble stat

/-- R28, R110, R112: outside a reset the status register changes only at the end of a read pulse's last high cycle, and takes
the part of the sample that pulse reads, from `lcd_db_i` in that cycle. -/
def Obligations.StatusTakesTheSample : Prop :=
  ∀ s t : State, s.inp.rst = false → step s = .next t →
    (sampling s = false → t.statQ = s.statQ) ∧
    (∀ kind rest part, s.seq = .run (.pulse kind .hi) rest → s.dly = 0 → extraCycle s = false → samplePart kind = some part →
      t.statQ = match part with
        | .full => s.inp.lcdDbI
        | .hi => hiNibble s.inp.lcdDbI ++ loNibble s.statQ
        | .lo => hiNibble s.statQ ++ hiNibble s.inp.lcdDbI)

/-! ## Numbers -/

/-- R12, R118: N_k is the least whole number of clock periods that is not shorter than T_k. -/
def Obligations.CycleCountIsLeastBound : Prop :=
  ∀ t f : Rat, 0 ≤ t → 0 < f → t * f ≤ cycleCount t f ∧ ∀ n : Nat, t * f ≤ n → cycleCount t f ≤ n

/-- R10, R12: times and a clock frequency make a build exactly if the frequency is above 0 and no time is negative; each count
of that build is the least whole number of clock periods not shorter than its time, and the other parameters are as given.
That a time is not negative is the model's inference (log 16). -/
def Obligations.BuildOfTiming : Prop :=
  ∀ (t : Timing) (c : Config),
    (configOfTiming t c = none ↔ t.fClk ≤ 0 ∨
      ∃ x ∈ [t.tPower, t.tR1, t.tR2, t.tR3, t.tTrail, t.tSwitch, t.tByte, t.tClear, t.tEpw, t.tSu, t.tEh], x < 0) ∧
    ∀ d : Config, configOfTiming t c = some d →
      (∀ n : Nat,
        (d.nPower ≤ n ↔ t.tPower * t.fClk ≤ n) ∧ (d.nR1 ≤ n ↔ t.tR1 * t.fClk ≤ n) ∧ (d.nR2 ≤ n ↔ t.tR2 * t.fClk ≤ n) ∧
        (d.nR3 ≤ n ↔ t.tR3 * t.fClk ≤ n) ∧ (d.nTrail ≤ n ↔ t.tTrail * t.fClk ≤ n) ∧
        (d.nSwitch ≤ n ↔ t.tSwitch * t.fClk ≤ n) ∧ (d.nByte ≤ n ↔ t.tByte * t.fClk ≤ n) ∧
        (d.nClear ≤ n ↔ t.tClear * t.fClk ≤ n) ∧ (d.nSu ≤ n ↔ t.tSu * t.fClk ≤ n) ∧ (d.nEpw ≤ n ↔ t.tEpw * t.fClk ≤ n) ∧
        (d.nEh ≤ n ↔ t.tEh * t.fClk ≤ n)) ∧
      d = { c with
        nPower := d.nPower, nR1 := d.nR1, nR2 := d.nR2, nR3 := d.nR3, nTrail := d.nTrail, nSwitch := d.nSwitch,
        nByte := d.nByte, nClear := d.nClear, nSu := d.nSu, nEpw := d.nEpw, nEh := d.nEh }

/-- R181, R182: the command for (x, y) is `0x80 | ddram(x, y)`, which equals `0x80 | (LINE_BASE[y] + x)` taken to 8 bits; and
`ddram(x, y)` is the address modulo 128; for every x and both lines. -/
def Obligations.SetDdramCommand : Prop :=
  ∀ (c : Config) (x : Byte), c.geometryOk = true → c.cmds.cmdSetDdram = 0x80 →
    (∀ y : Nat, y < c.lines → setDdramCmd c x y = 0x80 ||| BitVec.ofNat 8 (ddram c x y).toNat) ∧
    setDdramCmd c x 0 = 0x80 ||| (0x00 + x) ∧ setDdramCmd c x 1 = 0x80 ||| (0x40 + x) ∧
    (ddram c x 0).toNat = x.toNat % 128 ∧ (ddram c x 1).toNat = (0x40 + x.toNat) % 128

/-- R189: a newline moves to the other line and sends its address, and the newline after it comes back. The second request
finds the line index and the build the first left. -/
def Obligations.NewlineRoundTrip : Prop :=
  ∀ s s' t : State, s.inited = true → s.cfg.specValues → exec (.putc 0x0A) s = .next t →
    s'.inited = true → s'.cfg = s.cfg → s'.lineIdx = t.lineIdx →
    t.valQ = (if s.lineIdx = 0 then 0xC0 else 0x80) ∧ t.lineIdx ≠ s.lineIdx ∧
    ∃ t', exec (.putc 0x0A) s' = .next t' ∧ t'.lineIdx = s.lineIdx ∧ t'.valQ = (if s.lineIdx = 0 then 0x80 else 0xC0)

/-- R204: PUTC with the clear character is CLEAR, in every state. -/
def Obligations.FormFeedIsClear : Prop :=
  ∀ s : State, exec (.putc s.cfg.chFf) s = exec .clear s

/-- R227: the fault of a run is its error status: none before the first illegal request, and once there it stays, with its
cause, until reset. That no step stops on it, and that a reset ends it, are the model's reading and choice (log 1). -/
def Obligations.RunFaultIsSticky : Prop :=
  (∀ c : Config, runFault (State.resetOf c) = none) ∧
  ∀ (s t : State) (f : Fault), s.inp.rst = false → step s = .next t → runFault s = some f → runFault t = some f
end

