-- ==== Sys2Proof/Laws/Encode.lean ====
section
/-! SUPPORT. The fields of a request word, and the word of given fields (30_encoding.md R70). -/
namespace Sys2Proof

/-- The bits of `{OP, Y, Z, ARG}` with Z = 0. -/
theorem getLsbD_reqWord (op : BitVec 4) (y : BitVec 2) (a : Byte) (i : Nat) :
    (reqWord op y a).getLsbD i =
      if i < 8 then a.getLsbD i else if i < 10 then false else if i < 12 then y.getLsbD (i - 10) else op.getLsbD (i - 12) := by
  show BitVec.getLsbD (w := 4 + 2 + 2 + 8) (op ++ y ++ (0 : BitVec 2) ++ a) i = _
  simp only [BitVec.getLsbD_append, Nat.sub_sub]
  by_cases h1 : i < 8 <;> simp [h1]
  by_cases h2 : i < 10
  · simp [h2, show i ≤ 9 by omega]
  · by_cases h3 : i < 12
    · simp [h2, h3, show ¬ i ≤ 9 by omega, show i ≤ 11 by omega]
    · simp [h2, h3, show ¬ i ≤ 9 by omega, show ¬ i ≤ 11 by omega]

@[simp] theorem fieldOp_reqWord (op : BitVec 4) (y : BitVec 2) (a : Byte) : fieldOp (reqWord op y a) = op := by
  apply BitVec.eq_of_getLsbD_eq
  intro i hi
  simp only [fieldOp, BitVec.getLsbD_extractLsb', getLsbD_reqWord]
  simp [hi, show ¬ (12 + i < 8) by omega, show ¬ (12 + i < 10) by omega]

@[simp] theorem fieldY_reqWord (op : BitVec 4) (y : BitVec 2) (a : Byte) : fieldY (reqWord op y a) = y := by
  apply BitVec.eq_of_getLsbD_eq
  intro i hi
  simp only [fieldY, BitVec.getLsbD_extractLsb', getLsbD_reqWord]
  simp [hi, show ¬ (10 + i < 8) by omega, show 10 + i < 12 by omega]

@[simp] theorem fieldZ_reqWord (op : BitVec 4) (y : BitVec 2) (a : Byte) : fieldZ (reqWord op y a) = 0 := by
  apply BitVec.eq_of_getLsbD_eq
  intro i hi
  simp only [fieldZ, BitVec.getLsbD_extractLsb', getLsbD_reqWord]
  simp [show 8 + i < 10 by omega]

@[simp] theorem fieldArg_reqWord (op : BitVec 4) (y : BitVec 2) (a : Byte) : fieldArg (reqWord op y a) = a := by
  apply BitVec.eq_of_getLsbD_eq
  intro i hi
  simp only [fieldArg, BitVec.getLsbD_extractLsb', getLsbD_reqWord]
  simp [hi]

/-- A word whose Z is 0 is the word of its other fields. -/
theorem reqWord_fields (w : ReqWord) (h : fieldZ w = 0) : reqWord (fieldOp w) (fieldY w) (fieldArg w) = w := by
  apply BitVec.eq_of_getLsbD_eq
  intro i hi
  rw [getLsbD_reqWord]
  simp only [fieldOp, fieldY, fieldArg, BitVec.getLsbD_extractLsb']
  by_cases h1 : i < 8
  · simp [h1]
  · by_cases h2 : i < 10
    · have h3 : (fieldZ w).getLsbD (i - 8) = false := by rw [h]; simp
      simp only [fieldZ, BitVec.getLsbD_extractLsb', show 8 + (i - 8) = i by omega] at h3
      simp [h1, h2]
      simpa [show i - 8 < 2 by omega] using h3
    · by_cases h3 : i < 12
      · simp [h1, h2, h3, show i - 10 < 2 by omega, show 10 + (i - 10) = i by omega]
      · simp [h1, h2, h3, show i - 12 < 4 by omega, show 12 + (i - 12) = i by omega]

end Sys2Proof
end

