-- ==== Sys2Proof/Laws/State.lean ====
section
/-! SUPPORT. One lemma per field per update of State: what each named update does to each field. -/
namespace Sys2Proof.Machine

/-! The first cycle of a pulse phase. -/

@[simp] theorem enterPhase_cfg (kind : PulseKind) (ph : PulsePhase) (rest : List Prim) (s : State) : (enterPhase kind ph rest s).cfg = s.cfg := rfl
@[simp] theorem enterPhase_rsQ (kind : PulseKind) (ph : PulsePhase) (rest : List Prim) (s : State) : (enterPhase kind ph rest s).rsQ = s.rsQ := rfl
@[simp] theorem enterPhase_rwQ (kind : PulseKind) (ph : PulsePhase) (rest : List Prim) (s : State) : (enterPhase kind ph rest s).rwQ = s.rwQ := rfl
@[simp] theorem enterPhase_eQ (kind : PulseKind) (ph : PulsePhase) (rest : List Prim) (s : State) : (enterPhase kind ph rest s).eQ = (ph == .hi) := rfl
@[simp] theorem enterPhase_dbQ (kind : PulseKind) (ph : PulsePhase) (rest : List Prim) (s : State) : (enterPhase kind ph rest s).dbQ = s.dbQ := rfl
@[simp] theorem enterPhase_oeQ (kind : PulseKind) (ph : PulsePhase) (rest : List Prim) (s : State) : (enterPhase kind ph rest s).oeQ = s.oeQ := rfl
@[simp] theorem enterPhase_statQ (kind : PulseKind) (ph : PulsePhase) (rest : List Prim) (s : State) : (enterPhase kind ph rest s).statQ = s.statQ := rfl
@[simp] theorem enterPhase_lineIdx (kind : PulseKind) (ph : PulsePhase) (rest : List Prim) (s : State) : (enterPhase kind ph rest s).lineIdx = s.lineIdx := rfl
@[simp] theorem enterPhase_inited (kind : PulseKind) (ph : PulsePhase) (rest : List Prim) (s : State) : (enterPhase kind ph rest s).inited = s.inited := rfl
@[simp] theorem enterPhase_errQ (kind : PulseKind) (ph : PulsePhase) (rest : List Prim) (s : State) : (enterPhase kind ph rest s).errQ = s.errQ := rfl
@[simp] theorem enterPhase_causeQ (kind : PulseKind) (ph : PulsePhase) (rest : List Prim) (s : State) : (enterPhase kind ph rest s).causeQ = s.causeQ := rfl
@[simp] theorem enterPhase_valQ (kind : PulseKind) (ph : PulsePhase) (rest : List Prim) (s : State) : (enterPhase kind ph rest s).valQ = s.valQ := rfl
@[simp] theorem enterPhase_rselQ (kind : PulseKind) (ph : PulsePhase) (rest : List Prim) (s : State) : (enterPhase kind ph rest s).rselQ = s.rselQ := rfl
@[simp] theorem enterPhase_seq (kind : PulseKind) (ph : PulsePhase) (rest : List Prim) (s : State) : (enterPhase kind ph rest s).seq = .run (.pulse kind ph) rest := rfl
@[simp] theorem enterPhase_dly (kind : PulseKind) (ph : PulsePhase) (rest : List Prim) (s : State) : (enterPhase kind ph rest s).dly = phaseCycles s.cfg ph - 1 := rfl
@[simp] theorem enterPhase_inp (kind : PulseKind) (ph : PulsePhase) (rest : List Prim) (s : State) : (enterPhase kind ph rest s).inp = s.inp := rfl
@[simp] theorem enterPhase_tape (kind : PulseKind) (ph : PulsePhase) (rest : List Prim) (s : State) : (enterPhase kind ph rest s).tape = s.tape := rfl
@[simp] theorem enterPhase_tick (kind : PulseKind) (ph : PulsePhase) (rest : List Prim) (s : State) : (enterPhase kind ph rest s).tick = s.tick := rfl

/-! The latch of a sample. -/

@[simp] theorem takeSample_cfg (kind : PulseKind) (s : State) : (takeSample kind s).cfg = s.cfg := by unfold takeSample; split <;> rfl
@[simp] theorem takeSample_rsQ (kind : PulseKind) (s : State) : (takeSample kind s).rsQ = s.rsQ := by unfold takeSample; split <;> rfl
@[simp] theorem takeSample_rwQ (kind : PulseKind) (s : State) : (takeSample kind s).rwQ = s.rwQ := by unfold takeSample; split <;> rfl
@[simp] theorem takeSample_eQ (kind : PulseKind) (s : State) : (takeSample kind s).eQ = s.eQ := by unfold takeSample; split <;> rfl
@[simp] theorem takeSample_dbQ (kind : PulseKind) (s : State) : (takeSample kind s).dbQ = s.dbQ := by unfold takeSample; split <;> rfl
@[simp] theorem takeSample_oeQ (kind : PulseKind) (s : State) : (takeSample kind s).oeQ = s.oeQ := by unfold takeSample; split <;> rfl
@[simp] theorem takeSample_lineIdx (kind : PulseKind) (s : State) : (takeSample kind s).lineIdx = s.lineIdx := by unfold takeSample; split <;> rfl
@[simp] theorem takeSample_inited (kind : PulseKind) (s : State) : (takeSample kind s).inited = s.inited := by unfold takeSample; split <;> rfl
@[simp] theorem takeSample_errQ (kind : PulseKind) (s : State) : (takeSample kind s).errQ = s.errQ := by unfold takeSample; split <;> rfl
@[simp] theorem takeSample_causeQ (kind : PulseKind) (s : State) : (takeSample kind s).causeQ = s.causeQ := by unfold takeSample; split <;> rfl
@[simp] theorem takeSample_valQ (kind : PulseKind) (s : State) : (takeSample kind s).valQ = s.valQ := by unfold takeSample; split <;> rfl
@[simp] theorem takeSample_rselQ (kind : PulseKind) (s : State) : (takeSample kind s).rselQ = s.rselQ := by unfold takeSample; split <;> rfl
@[simp] theorem takeSample_seq (kind : PulseKind) (s : State) : (takeSample kind s).seq = s.seq := by unfold takeSample; split <;> rfl
@[simp] theorem takeSample_dly (kind : PulseKind) (s : State) : (takeSample kind s).dly = s.dly := by unfold takeSample; split <;> rfl
@[simp] theorem takeSample_inp (kind : PulseKind) (s : State) : (takeSample kind s).inp = s.inp := by unfold takeSample; split <;> rfl
@[simp] theorem takeSample_tape (kind : PulseKind) (s : State) : (takeSample kind s).tape = s.tape := by unfold takeSample; split <;> rfl
@[simp] theorem takeSample_tick (kind : PulseKind) (s : State) : (takeSample kind s).tick = s.tick := by unfold takeSample; split <;> rfl

/-! The next cycle's inputs. -/

@[simp] theorem nextInputs_cfg (s : State) : (nextInputs s).cfg = s.cfg := rfl
@[simp] theorem nextInputs_rsQ (s : State) : (nextInputs s).rsQ = s.rsQ := rfl
@[simp] theorem nextInputs_rwQ (s : State) : (nextInputs s).rwQ = s.rwQ := rfl
@[simp] theorem nextInputs_eQ (s : State) : (nextInputs s).eQ = s.eQ := rfl
@[simp] theorem nextInputs_dbQ (s : State) : (nextInputs s).dbQ = s.dbQ := rfl
@[simp] theorem nextInputs_oeQ (s : State) : (nextInputs s).oeQ = s.oeQ := rfl
@[simp] theorem nextInputs_statQ (s : State) : (nextInputs s).statQ = s.statQ := rfl
@[simp] theorem nextInputs_lineIdx (s : State) : (nextInputs s).lineIdx = s.lineIdx := rfl
@[simp] theorem nextInputs_inited (s : State) : (nextInputs s).inited = s.inited := rfl
@[simp] theorem nextInputs_errQ (s : State) : (nextInputs s).errQ = s.errQ := rfl
@[simp] theorem nextInputs_causeQ (s : State) : (nextInputs s).causeQ = s.causeQ := rfl
@[simp] theorem nextInputs_valQ (s : State) : (nextInputs s).valQ = s.valQ := rfl
@[simp] theorem nextInputs_rselQ (s : State) : (nextInputs s).rselQ = s.rselQ := rfl
@[simp] theorem nextInputs_seq (s : State) : (nextInputs s).seq = s.seq := rfl
@[simp] theorem nextInputs_dly (s : State) : (nextInputs s).dly = s.dly := rfl
@[simp] theorem nextInputs_inp (s : State) : (nextInputs s).inp = inputAt s 1 := rfl
@[simp] theorem nextInputs_tape (s : State) : (nextInputs s).tape = s.tape.tail := rfl
@[simp] theorem nextInputs_tick (s : State) : (nextInputs s).tick = s.tick + 1 := rfl

/-! The record of an illegal request. -/

@[simp] theorem illegalRequest_cfg (c : Cause) (s : State) : (illegalRequest c s).cfg = s.cfg := by unfold illegalRequest recordError; split <;> simp_all
@[simp] theorem illegalRequest_rsQ (c : Cause) (s : State) : (illegalRequest c s).rsQ = s.rsQ := by unfold illegalRequest recordError; split <;> simp_all
@[simp] theorem illegalRequest_rwQ (c : Cause) (s : State) : (illegalRequest c s).rwQ = s.rwQ := by unfold illegalRequest recordError; split <;> simp_all
@[simp] theorem illegalRequest_eQ (c : Cause) (s : State) : (illegalRequest c s).eQ = s.eQ := by unfold illegalRequest recordError; split <;> simp_all
@[simp] theorem illegalRequest_dbQ (c : Cause) (s : State) : (illegalRequest c s).dbQ = s.dbQ := by unfold illegalRequest recordError; split <;> simp_all
@[simp] theorem illegalRequest_oeQ (c : Cause) (s : State) : (illegalRequest c s).oeQ = s.oeQ := by unfold illegalRequest recordError; split <;> simp_all
@[simp] theorem illegalRequest_statQ (c : Cause) (s : State) : (illegalRequest c s).statQ = s.statQ := by unfold illegalRequest recordError; split <;> simp_all
@[simp] theorem illegalRequest_lineIdx (c : Cause) (s : State) : (illegalRequest c s).lineIdx = s.lineIdx := by unfold illegalRequest recordError; split <;> simp_all
@[simp] theorem illegalRequest_inited (c : Cause) (s : State) : (illegalRequest c s).inited = s.inited := by unfold illegalRequest recordError; split <;> simp_all
@[simp] theorem illegalRequest_errQ (c : Cause) (s : State) : (illegalRequest c s).errQ = true := by unfold illegalRequest recordError; split <;> simp_all
@[simp] theorem illegalRequest_causeQ (c : Cause) (s : State) : (illegalRequest c s).causeQ = (if s.errQ then s.causeQ else causeCode c) := by unfold illegalRequest recordError; split <;> simp_all
@[simp] theorem illegalRequest_valQ (c : Cause) (s : State) : (illegalRequest c s).valQ = s.valQ := by unfold illegalRequest recordError; split <;> simp_all
@[simp] theorem illegalRequest_rselQ (c : Cause) (s : State) : (illegalRequest c s).rselQ = s.rselQ := by unfold illegalRequest recordError; split <;> simp_all
@[simp] theorem illegalRequest_seq (c : Cause) (s : State) : (illegalRequest c s).seq = s.seq := by unfold illegalRequest recordError; split <;> simp_all
@[simp] theorem illegalRequest_dly (c : Cause) (s : State) : (illegalRequest c s).dly = s.dly := by unfold illegalRequest recordError; split <;> simp_all
@[simp] theorem illegalRequest_inp (c : Cause) (s : State) : (illegalRequest c s).inp = s.inp := by unfold illegalRequest recordError; split <;> simp_all
@[simp] theorem illegalRequest_tape (c : Cause) (s : State) : (illegalRequest c s).tape = s.tape := by unfold illegalRequest recordError; split <;> simp_all
@[simp] theorem illegalRequest_tick (c : Cause) (s : State) : (illegalRequest c s).tick = s.tick := by unfold illegalRequest recordError; split <;> simp_all

/-! Reset. -/

@[simp] theorem resetEdge_cfg (s : State) : (resetEdge s).cfg = s.cfg := rfl
@[simp] theorem resetEdge_rsQ (s : State) : (resetEdge s).rsQ = false := rfl
@[simp] theorem resetEdge_rwQ (s : State) : (resetEdge s).rwQ = false := rfl
@[simp] theorem resetEdge_eQ (s : State) : (resetEdge s).eQ = false := rfl
@[simp] theorem resetEdge_dbQ (s : State) : (resetEdge s).dbQ = 0 := rfl
@[simp] theorem resetEdge_oeQ (s : State) : (resetEdge s).oeQ = true := rfl
@[simp] theorem resetEdge_statQ (s : State) : (resetEdge s).statQ = 0 := rfl
@[simp] theorem resetEdge_lineIdx (s : State) : (resetEdge s).lineIdx = 0 := rfl
@[simp] theorem resetEdge_inited (s : State) : (resetEdge s).inited = false := rfl
@[simp] theorem resetEdge_errQ (s : State) : (resetEdge s).errQ = false := rfl
@[simp] theorem resetEdge_causeQ (s : State) : (resetEdge s).causeQ = 0 := rfl
@[simp] theorem resetEdge_valQ (s : State) : (resetEdge s).valQ = 0 := rfl
@[simp] theorem resetEdge_rselQ (s : State) : (resetEdge s).rselQ = false := rfl
@[simp] theorem resetEdge_seq (s : State) : (resetEdge s).seq = .idle := rfl
@[simp] theorem resetEdge_dly (s : State) : (resetEdge s).dly = 0 := rfl
@[simp] theorem resetEdge_inp (s : State) : (resetEdge s).inp = s.inp := rfl
@[simp] theorem resetEdge_tape (s : State) : (resetEdge s).tape = s.tape := rfl
@[simp] theorem resetEdge_tick (s : State) : (resetEdge s).tick = s.tick := rfl

/-! A presented word. -/

@[simp] theorem present_cfg (s : State) (w : ReqWord) : (present s w).cfg = s.cfg := rfl
@[simp] theorem present_rsQ (s : State) (w : ReqWord) : (present s w).rsQ = s.rsQ := rfl
@[simp] theorem present_rwQ (s : State) (w : ReqWord) : (present s w).rwQ = s.rwQ := rfl
@[simp] theorem present_eQ (s : State) (w : ReqWord) : (present s w).eQ = s.eQ := rfl
@[simp] theorem present_dbQ (s : State) (w : ReqWord) : (present s w).dbQ = s.dbQ := rfl
@[simp] theorem present_oeQ (s : State) (w : ReqWord) : (present s w).oeQ = s.oeQ := rfl
@[simp] theorem present_statQ (s : State) (w : ReqWord) : (present s w).statQ = s.statQ := rfl
@[simp] theorem present_lineIdx (s : State) (w : ReqWord) : (present s w).lineIdx = s.lineIdx := rfl
@[simp] theorem present_inited (s : State) (w : ReqWord) : (present s w).inited = s.inited := rfl
@[simp] theorem present_errQ (s : State) (w : ReqWord) : (present s w).errQ = s.errQ := rfl
@[simp] theorem present_causeQ (s : State) (w : ReqWord) : (present s w).causeQ = s.causeQ := rfl
@[simp] theorem present_valQ (s : State) (w : ReqWord) : (present s w).valQ = s.valQ := rfl
@[simp] theorem present_rselQ (s : State) (w : ReqWord) : (present s w).rselQ = s.rselQ := rfl
@[simp] theorem present_seq (s : State) (w : ReqWord) : (present s w).seq = .idle := rfl
@[simp] theorem present_dly (s : State) (w : ReqWord) : (present s w).dly = 0 := rfl
@[simp] theorem present_inp (s : State) (w : ReqWord) : (present s w).inp = { s.inp with rst := false, reqValid := true, reqWord := w } := rfl
@[simp] theorem present_tape (s : State) (w : ReqWord) : (present s w).tape = s.tape := rfl
@[simp] theorem present_tick (s : State) (w : ReqWord) : (present s w).tick = s.tick := rfl

/-! A one-cycle primitive. -/

@[simp] theorem applyLine_cfg (op : LineOp) (s : State) : (applyLine op s).cfg = s.cfg := by cases op with
  | setDir d => cases d <;> rfl
  | _ => rfl
@[simp] theorem applyLine_eQ (op : LineOp) (s : State) : (applyLine op s).eQ = s.eQ := by cases op with
  | setDir d => cases d <;> rfl
  | _ => rfl
@[simp] theorem applyLine_statQ (op : LineOp) (s : State) : (applyLine op s).statQ = s.statQ := by cases op with
  | setDir d => cases d <;> rfl
  | _ => rfl
@[simp] theorem applyLine_lineIdx (op : LineOp) (s : State) : (applyLine op s).lineIdx = s.lineIdx := by cases op with
  | setDir d => cases d <;> rfl
  | _ => rfl
@[simp] theorem applyLine_inited (op : LineOp) (s : State) : (applyLine op s).inited = s.inited := by cases op with
  | setDir d => cases d <;> rfl
  | _ => rfl
@[simp] theorem applyLine_errQ (op : LineOp) (s : State) : (applyLine op s).errQ = s.errQ := by cases op with
  | setDir d => cases d <;> rfl
  | _ => rfl
@[simp] theorem applyLine_causeQ (op : LineOp) (s : State) : (applyLine op s).causeQ = s.causeQ := by cases op with
  | setDir d => cases d <;> rfl
  | _ => rfl
@[simp] theorem applyLine_valQ (op : LineOp) (s : State) : (applyLine op s).valQ = s.valQ := by cases op with
  | setDir d => cases d <;> rfl
  | _ => rfl
@[simp] theorem applyLine_rselQ (op : LineOp) (s : State) : (applyLine op s).rselQ = s.rselQ := by cases op with
  | setDir d => cases d <;> rfl
  | _ => rfl
@[simp] theorem applyLine_seq (op : LineOp) (s : State) : (applyLine op s).seq = s.seq := by cases op with
  | setDir d => cases d <;> rfl
  | _ => rfl
@[simp] theorem applyLine_dly (op : LineOp) (s : State) : (applyLine op s).dly = s.dly := by cases op with
  | setDir d => cases d <;> rfl
  | _ => rfl
@[simp] theorem applyLine_inp (op : LineOp) (s : State) : (applyLine op s).inp = s.inp := by cases op with
  | setDir d => cases d <;> rfl
  | _ => rfl
@[simp] theorem applyLine_tape (op : LineOp) (s : State) : (applyLine op s).tape = s.tape := by cases op with
  | setDir d => cases d <;> rfl
  | _ => rfl
@[simp] theorem applyLine_tick (op : LineOp) (s : State) : (applyLine op s).tick = s.tick := by cases op with
  | setDir d => cases d <;> rfl
  | _ => rfl

/-! The control lines and the data lines of a one-cycle primitive. -/

@[simp] theorem applyLine_rsQ (op : LineOp) (s : State) :
    (applyLine op s).rsQ = match op with | .setRs v => bitOf s v | _ => s.rsQ := by
  cases op with
  | setDir d => cases d <;> rfl
  | _ => rfl

@[simp] theorem applyLine_rwQ (op : LineOp) (s : State) :
    (applyLine op s).rwQ = match op with | .setRw v => v | _ => s.rwQ := by
  cases op with
  | setDir d => cases d <;> rfl
  | _ => rfl

@[simp] theorem applyLine_oeQ (op : LineOp) (s : State) :
    (applyLine op s).oeQ = match op with | .setDir d => d == .output | _ => s.oeQ := by
  cases op with
  | setDir d => cases d <;> rfl
  | _ => rfl

@[simp] theorem applyLine_dbQ (op : LineOp) (s : State) :
    (applyLine op s).dbQ = match op with
      | .put8 b => byteOf s b
      | .putHi b => setHi s.dbQ (hiNibble (byteOf s b))
      | .putLo b => setHi s.dbQ (loNibble (byteOf s b))
      | _ => s.dbQ := by
  cases op with
  | setDir d => cases d <;> rfl
  | _ => rfl

/-! The first cycle of an enable pulse. -/

@[simp] theorem startPulse_cfg (kind : PulseKind) (rest : List Prim) (s : State) : (startPulse kind rest s).cfg = s.cfg := by unfold startPulse; split <;> rfl
@[simp] theorem startPulse_rsQ (kind : PulseKind) (rest : List Prim) (s : State) : (startPulse kind rest s).rsQ = s.rsQ := by unfold startPulse; split <;> rfl
@[simp] theorem startPulse_rwQ (kind : PulseKind) (rest : List Prim) (s : State) : (startPulse kind rest s).rwQ = s.rwQ := by unfold startPulse; split <;> rfl
@[simp] theorem startPulse_dbQ (kind : PulseKind) (rest : List Prim) (s : State) : (startPulse kind rest s).dbQ = s.dbQ := by unfold startPulse; split <;> rfl
@[simp] theorem startPulse_oeQ (kind : PulseKind) (rest : List Prim) (s : State) : (startPulse kind rest s).oeQ = s.oeQ := by unfold startPulse; split <;> rfl
@[simp] theorem startPulse_statQ (kind : PulseKind) (rest : List Prim) (s : State) : (startPulse kind rest s).statQ = s.statQ := by unfold startPulse; split <;> rfl
@[simp] theorem startPulse_lineIdx (kind : PulseKind) (rest : List Prim) (s : State) : (startPulse kind rest s).lineIdx = s.lineIdx := by unfold startPulse; split <;> rfl
@[simp] theorem startPulse_inited (kind : PulseKind) (rest : List Prim) (s : State) : (startPulse kind rest s).inited = s.inited := by unfold startPulse; split <;> rfl
@[simp] theorem startPulse_errQ (kind : PulseKind) (rest : List Prim) (s : State) : (startPulse kind rest s).errQ = s.errQ := by unfold startPulse; split <;> rfl
@[simp] theorem startPulse_causeQ (kind : PulseKind) (rest : List Prim) (s : State) : (startPulse kind rest s).causeQ = s.causeQ := by unfold startPulse; split <;> rfl
@[simp] theorem startPulse_valQ (kind : PulseKind) (rest : List Prim) (s : State) : (startPulse kind rest s).valQ = s.valQ := by unfold startPulse; split <;> rfl
@[simp] theorem startPulse_rselQ (kind : PulseKind) (rest : List Prim) (s : State) : (startPulse kind rest s).rselQ = s.rselQ := by unfold startPulse; split <;> rfl
@[simp] theorem startPulse_inp (kind : PulseKind) (rest : List Prim) (s : State) : (startPulse kind rest s).inp = s.inp := by unfold startPulse; split <;> rfl
@[simp] theorem startPulse_tape (kind : PulseKind) (rest : List Prim) (s : State) : (startPulse kind rest s).tape = s.tape := by unfold startPulse; split <;> rfl
@[simp] theorem startPulse_tick (kind : PulseKind) (rest : List Prim) (s : State) : (startPulse kind rest s).tick = s.tick := by unfold startPulse; split <;> rfl

/-! Loading primitives: the registers no primitive's first cycle writes. -/

@[simp] theorem load_cfg (l : List Prim) (s : State) : (load l s).cfg = s.cfg := by induction l with
  | nil => rfl
  | cons p rest ih =>
    cases p with
    | wait k => simp only [load]; split <;> first | exact ih | rfl
    | line op => simp [load]
    | _ => simp [load]
@[simp] theorem load_statQ (l : List Prim) (s : State) : (load l s).statQ = s.statQ := by induction l with
  | nil => rfl
  | cons p rest ih =>
    cases p with
    | wait k => simp only [load]; split <;> first | exact ih | rfl
    | line op => simp [load]
    | _ => simp [load]
@[simp] theorem load_lineIdx (l : List Prim) (s : State) : (load l s).lineIdx = s.lineIdx := by induction l with
  | nil => rfl
  | cons p rest ih =>
    cases p with
    | wait k => simp only [load]; split <;> first | exact ih | rfl
    | line op => simp [load]
    | _ => simp [load]
@[simp] theorem load_inited (l : List Prim) (s : State) : (load l s).inited = s.inited := by induction l with
  | nil => rfl
  | cons p rest ih =>
    cases p with
    | wait k => simp only [load]; split <;> first | exact ih | rfl
    | line op => simp [load]
    | _ => simp [load]
@[simp] theorem load_errQ (l : List Prim) (s : State) : (load l s).errQ = s.errQ := by induction l with
  | nil => rfl
  | cons p rest ih =>
    cases p with
    | wait k => simp only [load]; split <;> first | exact ih | rfl
    | line op => simp [load]
    | _ => simp [load]
@[simp] theorem load_causeQ (l : List Prim) (s : State) : (load l s).causeQ = s.causeQ := by induction l with
  | nil => rfl
  | cons p rest ih =>
    cases p with
    | wait k => simp only [load]; split <;> first | exact ih | rfl
    | line op => simp [load]
    | _ => simp [load]
@[simp] theorem load_valQ (l : List Prim) (s : State) : (load l s).valQ = s.valQ := by induction l with
  | nil => rfl
  | cons p rest ih =>
    cases p with
    | wait k => simp only [load]; split <;> first | exact ih | rfl
    | line op => simp [load]
    | _ => simp [load]
@[simp] theorem load_rselQ (l : List Prim) (s : State) : (load l s).rselQ = s.rselQ := by induction l with
  | nil => rfl
  | cons p rest ih =>
    cases p with
    | wait k => simp only [load]; split <;> first | exact ih | rfl
    | line op => simp [load]
    | _ => simp [load]
@[simp] theorem load_inp (l : List Prim) (s : State) : (load l s).inp = s.inp := by induction l with
  | nil => rfl
  | cons p rest ih =>
    cases p with
    | wait k => simp only [load]; split <;> first | exact ih | rfl
    | line op => simp [load]
    | _ => simp [load]
@[simp] theorem load_tape (l : List Prim) (s : State) : (load l s).tape = s.tape := by induction l with
  | nil => rfl
  | cons p rest ih =>
    cases p with
    | wait k => simp only [load]; split <;> first | exact ih | rfl
    | line op => simp [load]
    | _ => simp [load]
@[simp] theorem load_tick (l : List Prim) (s : State) : (load l s).tick = s.tick := by induction l with
  | nil => rfl
  | cons p rest ih =>
    cases p with
    | wait k => simp only [load]; split <;> first | exact ih | rfl
    | line op => simp [load]
    | _ => simp [load]

end Sys2Proof.Machine
end

