-- ==== Sys2Proof/Laws/Ops.lean ====
section
/-! SUPPORT. For each shared operation, what it can do, said once; provers cite these and do not unfold the operation. -/
namespace Sys2Proof.Machine

/-! ## The sequencer position and the counter are overwritten by `load` -/

/-- What `load` makes of a state does not depend on where the sequencer stood. -/
theorem load_seq_dly (l : List Prim) (s : State) (q : Sequencer) (d : Nat) :
    load l { s with seq := q, dly := d } = load l s := by
  induction l with
  | nil => rfl
  | cons p rest ih =>
    cases p with
    | wait k => simp only [load]; split <;> first | exact ih | rfl
    | line op =>
      cases op with
      | setDir d => cases d <;> rfl
      | setRs v => cases v <;> rfl
      | setRw v => rfl
      | put8 b => cases b <;> rfl
      | putHi b => cases b <;> rfl
      | putLo b => cases b <;> rfl
    | _ => simp only [load, startPulse]; split <;> rfl

/-- A primitive of no cycles is passed over (R111). -/
theorem load_wait_zero (k : Delay) (rest : List Prim) (s : State) (h : delayCycles s.cfg k = 0) :
    load (.wait k :: rest) s = load rest s := by
  simp [load, h]

/-- The first cycle of a WAIT (R111, R115). -/
theorem load_wait_pos (k : Delay) (rest : List Prim) (s : State) (h : delayCycles s.cfg k ≠ 0) :
    load (.wait k :: rest) s = { s with seq := .run (.wait k) rest, dly := delayCycles s.cfg k - 1 } := by
  simp [load, h]

/-- What drives the ports does not reach what `load` does. -/
theorem load_env (l : List Prim) (s : State) (i : Inputs) (tp : List Inputs) (n : Nat) :
    load l { s with inp := i, tape := tp, tick := n } = { load l s with inp := i, tape := tp, tick := n } := by
  induction l generalizing s with
  | nil => rfl
  | cons p rest ih =>
    cases p with
    | wait k =>
      by_cases h : delayCycles s.cfg k = 0
      · rw [load_wait_zero k rest { s with inp := i, tape := tp, tick := n } h, load_wait_zero k rest s h, ih]
      · rw [load_wait_pos k rest { s with inp := i, tape := tp, tick := n } h, load_wait_pos k rest s h]
    | line op =>
      cases op with
      | setDir d => cases d <;> rfl
      | setRs v => cases v <;> rfl
      | setRw v => rfl
      | put8 b => cases b <;> rfl
      | putHi b => cases b <;> rfl
      | putLo b => cases b <;> rfl
    | _ => simp only [load, startPulse]; split <;> rfl

/-- `load` commutes with the change of the input levels. -/
theorem load_nextInputs (l : List Prim) (s : State) : load l (nextInputs s) = nextInputs (load l s) := by
  have h : inputAt (load l s) 1 = inputAt s 1 := by simp [inputAt]
  rw [nextInputs, nextInputs, load_env, h, load_tape, load_tick]

/-! ## The counts of a conforming build -/

/-- The geometry of R10 and R11, one by one. -/
theorem geometryOk_iff {c : Config} :
    c.geometryOk = true ↔ c.lines = 2 ∧ c.cols = 16 ∧ c.lineBase = #v[0x00, 0x40, 0x10, 0x50] := by
  simp only [Config.geometryOk, Bool.and_eq_true, beq_iff_eq, and_assoc]
  constructor
  · rintro ⟨h1, h2, h3⟩
    exact ⟨h1, h2, by rw [h3, h2]; rfl⟩
  · rintro ⟨h1, h2, h3⟩
    exact ⟨h1, h2, by rw [h3, h2]; rfl⟩

/-- The bases of the two lines (R11). -/
theorem lineBase_geometry {c : Config} (h : c.geometryOk = true) : lineBase c 0 = 0x00 ∧ lineBase c 1 = 0x40 := by
  simp [lineBase, (geometryOk_iff.mp h).2.2]

/-- There are two lines, and the next is the other (R186). -/
theorem nextLine_geometry {c : Config} (h : c.geometryOk = true) (l : BitVec 1) :
    nextLine c l = if l = 0 then 1 else 0 := by
  simp only [nextLine, (geometryOk_iff.mp h).1]
  revert l
  decide

/-- A conforming build has the geometry of R10 and R11 (log 9). -/
theorem conforming_geometry {c : Config} (h : c.conforming = true) : c.geometryOk = true := by
  simp only [Config.conforming, Bool.and_eq_true] at h
  exact h.2

/-- The constraints of R12, one by one. -/
theorem conforming_pos {c : Config} (h : c.conforming = true) :
    1 ≤ c.nPower ∧ 1 ≤ c.nR1 ∧ 1 ≤ c.nR2 ∧ 1 ≤ c.nR3 ∧ 1 ≤ c.nByte ∧ 1 ≤ c.nClear ∧ 1 ≤ c.nEpw ∧ 1 ≤ c.nEh := by
  simp [Config.conforming, Config.countsPositive] at h
  omega

/-- The high phase of a pulse has a cycle (R12, R108). -/
theorem conforming_epw {c : Config} (h : c.conforming = true) : 1 ≤ c.nEpw := (conforming_pos h).2.2.2.2.2.2.1

/-- The low phase after it has a cycle (R12, R108). -/
theorem conforming_eh {c : Config} (h : c.conforming = true) : 1 ≤ c.nEh := (conforming_pos h).2.2.2.2.2.2.2

/-- Every WAIT fits in the counter (R12, R116). -/
theorem conforming_delay_le {c : Config} (h : c.conforming = true) (k : Delay) : delayCycles c k ≤ 2 ^ c.dlyW := by
  simp [Config.conforming, Config.countsFit] at h
  cases k <;> simp only [delayCycles] <;> omega

/-- Every pulse phase fits in the counter (R12, R116). -/
theorem conforming_phase_le {c : Config} (h : c.conforming = true) (ph : PulsePhase) : phaseCycles c ph ≤ 2 ^ c.dlyW := by
  simp [Config.conforming, Config.countsFit] at h
  cases ph <;> simp only [phaseCycles] <;> omega

/-! ## Meanings -/

/-- What the acceptance edge of any request does: the illegal-request action, or latching, the two acceptance actions and
the expansion (R76, R222). -/
theorem exec_cases (i : Instr) (s : State) :
    (∃ c, exec i s = .next (illegalRequest c s)) ∨
    (∃ val rsel expansion l n, exec i s = .next (accept val rsel expansion { s with lineIdx := l, inited := n })
      ∧ (s.inited = true → n = true) ∧ n = true) := by
  cases i <;> simp only [exec, execInit, execCmd, execData, execClear, execHome, execGoto, execPutc, whenInited]
  case init =>
    split
    · exact .inl ⟨_, rfl⟩
    · exact .inr ⟨_, _, _, _, _, rfl, fun _ => rfl, rfl⟩
  all_goals
    split
    case isFalse => exact .inl ⟨_, rfl⟩
    rename_i hi
  case cmd => exact .inr ⟨_, _, _, s.lineIdx, true, by rw [← hi]; rfl, fun _ => rfl, rfl⟩
  case data => exact .inr ⟨_, _, _, s.lineIdx, true, by rw [← hi]; rfl, fun _ => rfl, rfl⟩
  case clear => exact .inr ⟨_, _, _, 0, true, by rw [← hi]; rfl, fun _ => rfl, rfl⟩
  case home => exact .inr ⟨_, _, _, 0, true, by rw [← hi]; rfl, fun _ => rfl, rfl⟩
  case goto =>
    split
    · exact .inl ⟨_, rfl⟩
    · exact .inr ⟨_, _, _, s.lineIdx, true, by rw [← hi], fun _ => rfl, rfl⟩
  case putc =>
    split
    · exact .inr ⟨_, _, _, 0, true, by rw [← hi]; rfl, fun _ => rfl, rfl⟩
    · split
      · exact .inr ⟨_, _, _, nextLine s.cfg s.lineIdx, true, by rw [← hi]; rfl, fun _ => rfl, rfl⟩
      · exact .inr ⟨_, _, _, s.lineIdx, true, by rw [← hi]; rfl, fun _ => rfl, rfl⟩

/-- Every request answers a next state, in every state. -/
theorem exec_next (i : Instr) (s : State) : ∃ t, exec i s = .next t := by
  rcases exec_cases i s with ⟨c, h⟩ | ⟨v, r, e, l, n, h, _⟩
  · exact ⟨_, h⟩
  · exact ⟨_, h⟩

/-! ## The edge and the step -/

/-- Every word on the request port answers a next state. -/
theorem acceptRequest_next (s : State) : ∃ t, acceptRequest s = .next t := by
  unfold acceptRequest
  split
  · exact exec_next _ _
  · exact ⟨_, rfl⟩

/-- What an edge can do: reset, an extra cycle, a cycle of the sequencer, an acceptance, or an idle cycle. -/
theorem edge_cases {s t : State} (h : edge s = .next t) :
    (s.inp.rst = true ∧ t = resetEdge s) ∨
    (extraCycle s = true ∧ t = s) ∨
    (s.inp.rst = false ∧ extraCycle s = false ∧ ∃ cur rest, s.seq = .run cur rest ∧ t = advance cur rest s) ∨
    (s.inp.rst = false ∧ s.seq = .idle ∧ s.inp.reqValid = true ∧ acceptRequest s = .next t) ∨
    (s.inp.rst = false ∧ s.seq = .idle ∧ s.inp.reqValid = false ∧ t = s) := by
  unfold edge at h
  split at h
  · rename_i hr
    exact .inl ⟨hr, by injection h with h; exact h.symm⟩
  · rename_i hr
    have hr : s.inp.rst = false := by simpa using hr
    split at h
    · rename_i hx
      exact .inr (.inl ⟨hx, by injection h with h; exact h.symm⟩)
    · rename_i hx
      split at h
      · rename_i cur rest hs
        exact .inr (.inr (.inl ⟨hr, by simpa using hx, cur, rest, hs, by injection h with h; exact h.symm⟩))
      · rename_i hs
        split at h
        · rename_i hv
          exact .inr (.inr (.inr (.inl ⟨hr, hs, hv, h⟩)))
        · rename_i hv
          exact .inr (.inr (.inr (.inr ⟨hr, hs, by simpa using hv, by injection h with h; exact h.symm⟩)))

/-- An edge always answers a next state. -/
theorem edge_next (s : State) : ∃ t, edge s = .next t := by
  unfold edge
  repeat' split
  all_goals first | exact acceptRequest_next s | exact ⟨_, rfl⟩

/-- What a step can do: the build conforms, and the next state is that of an edge with the next cycle's input levels. -/
theorem step_cases {s t : State} (h : step s = .next t) :
    s.cfg.conforming = true ∧ ∃ u, edge s = .next u ∧ t = nextInputs u := by
  unfold step clock at h
  split at h
  · rename_i hc
    refine ⟨hc, ?_⟩
    unfold cycle at h
    split at h
    · rename_i u hu
      exact ⟨u, hu, by injection h with h; exact h.symm⟩
    · cases h
    · cases h
  · cases h

/-- A step of a conforming build is its edge, then the next cycle's input levels. -/
theorem step_of_edge {s u : State} (hc : s.cfg.conforming = true) (h : edge s = .next u) :
    step s = .next (nextInputs u) := by
  simp [step, clock, hc, cycle, h]

/-- A step of a conforming build always answers a next state: nothing stops the block. -/
theorem step_next {s : State} (hc : s.cfg.conforming = true) : ∃ t, step s = .next t := by
  obtain ⟨u, hu⟩ := edge_next s
  exact ⟨_, step_of_edge hc hu⟩

/-- There is an extra cycle only in a build that stretches, where the implementation makes one, in RUN, without a reset. -/
theorem extraCycle_iff {s : State} :
    extraCycle s = true ↔ s.cfg.stretches = true ∧ s.inp.extra = true ∧ s.inp.rst = false ∧ isIdle s = false := by
  simp [extraCycle, and_assoc]

/-- The reference timing has no extra cycle. -/
theorem extraCycle_of_reference {s : State} (h : s.cfg.stretches = true → s.inp.extra = false) : extraCycle s = false := by
  cases hs : s.cfg.stretches
  · simp [extraCycle, hs]
  · simp [extraCycle, h hs]

/-- A cycle with a reset is no extra one. -/
theorem extraCycle_of_rst {s : State} (h : s.inp.rst = true) : extraCycle s = false := by
  simp [extraCycle, h]

/-- An extra cycle (R101). -/
theorem step_extra {s : State} (hc : s.cfg.conforming = true) (h : extraCycle s = true) : step s = .next (nextInputs s) :=
  step_of_edge hc (by simp [edge, h, (extraCycle_iff.mp h).2.2.1])

/-- A cycle of RUN that is no extra one. -/
theorem step_run {s : State} {cur : Cur} {rest : List Prim} (hc : s.cfg.conforming = true) (hr : s.inp.rst = false)
    (hx : extraCycle s = false) (hs : s.seq = .run cur rest) : step s = .next (nextInputs (advance cur rest s)) :=
  step_of_edge hc (by simp [edge, hr, hx, hs])

end Sys2Proof.Machine
end

