-- ==== Sys2Proof/Laws/PerInstr.lean ====
section
/-! SUPPORT. Statements made request by request. -/
namespace Sys2Proof.Laws.TableRow

/-- The mask of the request's row in opcode_table.json: the bits the row fixes. -/
def mask : Instr → ReqWord
  | .init => 0xFFFF
  | .cmd _ => 0xFF00
  | .data _ => 0xFF00
  | .clear => 0xFFFF
  | .home => 0xFFFF
  | .goto _ _ => 0xF300
  | .putc _ => 0xFF00

/-- The match of the request's row: the values of those bits. -/
def value : Instr → ReqWord
  | .init => 0x0000
  | .cmd _ => 0x1000
  | .data _ => 0x2000
  | .clear => 0x3000
  | .home => 0x4000
  | .goto _ _ => 0x5000
  | .putc _ => 0x6000

/-- The request's word has the fixed bits of its row in opcode_table.json (R72). -/
def Statement (i : Instr) : Prop := encode i &&& mask i = value i

theorem init : Statement .init := by unfold Statement; decide

theorem cmd (b : Byte) : Statement (.cmd b) := by unfold Statement; revert b; decide

theorem data (b : Byte) : Statement (.data b) := by unfold Statement; revert b; decide

theorem clear : Statement .clear := by unfold Statement; decide

theorem home : Statement .home := by unfold Statement; decide

theorem goto (x : Byte) (y : BitVec 2) : Statement (.goto x y) := by
  unfold Statement
  have h : ∀ y : BitVec 2, ∀ x : Byte, encode (.goto x y) &&& 0xF300 = 0x5000 := by decide
  exact h y x

theorem putc (c : Byte) : Statement (.putc c) := by unfold Statement; revert c; decide

end Sys2Proof.Laws.TableRow
end

