-- ==== Sys2Proof/Laws/Reference.lean ====
section
/-! SUPPORT. The reference timing (41_signal_driver.md R101): no operation but the edge itself looks at whether the build takes
extra cycles. -/
namespace Sys2Proof.Machine

/-- The reference timing of a state, with other input levels. -/
def retimed (s : State) (i : Inputs) (tp : List Inputs) (n : Nat) : State := { reference s with inp := i, tape := tp, tick := n }

/-- The reference timing has the delays of the build. -/
theorem delayCycles_reference (c : Config) (k : Delay) : delayCycles c.reference k = delayCycles c k := by cases k <;> rfl

/-- The first cycle of a pulse does not look at the timing or at the input levels. -/
theorem startPulse_retimed (k : PulseKind) (rest : List Prim) (s : State) (i : Inputs) (tp : List Inputs) (n : Nat) :
    startPulse k rest (retimed s i tp n) = retimed (startPulse k rest s) i tp n := by
  simp only [startPulse]; split <;> split <;> simp_all [retimed, reference, Config.reference, enterPhase, phaseCycles]

/-- `load` does not look at the timing or at the input levels. -/
theorem load_retimed (l : List Prim) (s : State) (i : Inputs) (tp : List Inputs) (n : Nat) :
    load l (retimed s i tp n) = retimed (load l s) i tp n := by
  induction l with
  | nil => rfl
  | cons p rest ih =>
    cases p with
    | line op =>
      cases op with
      | setRs v => cases v <;> rfl
      | setDir d => cases d <;> rfl
      | put8 b => cases b <;> rfl
      | putHi b => cases b <;> rfl
      | putLo b => cases b <;> rfl
      | setRw v => rfl
    | wait k =>
      by_cases h : delayCycles s.cfg k = 0
      · have h' : delayCycles (retimed s i tp n).cfg k = 0 := (delayCycles_reference s.cfg k).trans h
        rw [load_wait_zero _ _ _ h, load_wait_zero _ _ _ h', ih]
      · have h' : delayCycles (retimed s i tp n).cfg k ≠ 0 := fun h0 => h ((delayCycles_reference s.cfg k).symm.trans h0)
        rw [load_wait_pos _ _ _ h, load_wait_pos _ _ _ h']
        simp only [retimed, reference, delayCycles_reference]
    | pulse => exact startPulse_retimed ..
    | pulseRd p => exact startPulse_retimed ..
    | poll8 => exact startPulse_retimed ..
    | poll4 => exact startPulse_retimed ..

/-- The first cycle of a phase does not look at the timing or at the input levels. -/
theorem enterPhase_retimed (k : PulseKind) (ph : PulsePhase) (rest : List Prim) (s : State) (i : Inputs) (tp : List Inputs) (n : Nat) :
    enterPhase k ph rest (retimed s i tp n) = retimed (enterPhase k ph rest s) i tp n := by
  cases ph <;> simp [retimed, reference, Config.reference, enterPhase, phaseCycles]

/-- The poll test does not look at the timing or at the input levels. -/
theorem pollTest_retimed (k : PulseKind) (rest : List Prim) (s : State) (i : Inputs) (tp : List Inputs) (n : Nat) :
    pollTest k rest (retimed s i tp n) = retimed (pollTest k rest s) i tp n := by
  simp only [pollTest]
  have : busyFlag (retimed s i tp n).cfg (retimed s i tp n).statQ = busyFlag s.cfg s.statQ := rfl
  rw [this]; split
  · exact startPulse_retimed ..
  · exact load_retimed ..

/-- The end of a phase looks at the present levels, for the sample, and not at the timing. -/
theorem finish_retimed (cur : Cur) (rest : List Prim) (s : State) (tp : List Inputs) (n : Nat) :
    finish cur rest (retimed s s.inp tp n) = retimed (finish cur rest s) s.inp tp n := by
  rcases cur with op | k | ⟨kind, ph⟩
  · exact load_retimed ..
  · exact load_retimed ..
  · cases ph
    · exact enterPhase_retimed ..
    · simp only [finish]
      have : takeSample kind (retimed s s.inp tp n) = retimed (takeSample kind s) s.inp tp n := by cases kind with
        | read p => cases p <;> rfl
        | _ => rfl
      rw [this]; exact enterPhase_retimed ..
    · simp only [finish]
      cases kind <;> simp only [endPulse]
      · exact load_retimed ..
      · exact load_retimed ..
      · exact pollTest_retimed ..
      · exact startPulse_retimed ..
      · exact pollTest_retimed ..

/-- A cycle of RUN looks at the present levels, and not at the timing. -/
theorem advance_retimed (cur : Cur) (rest : List Prim) (s : State) (tp : List Inputs) (n : Nat) :
    advance cur rest (retimed s s.inp tp n) = retimed (advance cur rest s) s.inp tp n := by
  simp only [advance]
  have : (retimed s s.inp tp n).dly = s.dly := rfl
  rw [this]; split
  · exact finish_retimed ..
  · rfl

/-- The illegal-request action does not look at the timing. -/
theorem illegalRequest_retimed (c : Cause) (s : State) (tp : List Inputs) (n : Nat) :
    illegalRequest c (retimed s s.inp tp n) = retimed (illegalRequest c s) s.inp tp n := by
  unfold illegalRequest recordError
  have : (retimed s s.inp tp n).errQ = s.errQ := rfl
  rw [this]; split <;> rfl

/-- An acceptance does not look at the timing. -/
theorem accept_retimed (v : Byte) (r : Bool) (e : List Prim) (s : State) (tp : List Inputs) (n : Nat) :
    accept v r e (retimed s s.inp tp n) = retimed (accept v r e s) s.inp tp n := by
  exact load_retimed e { s with valQ := v, rselQ := r } s.inp tp n

/-- The check of `inited` does not look at the timing. -/
theorem whenInited_retimed (s e : State) (tp : List Inputs) (n : Nat) :
    whenInited (retimed s s.inp tp n) (retimed e s.inp tp n) = retimed (whenInited s e) s.inp tp n := by
  unfold whenInited
  have : (retimed s s.inp tp n).inited = s.inited := rfl
  rw [this]; split
  · rfl
  · exact illegalRequest_retimed ..

/-- A request means the same in the reference timing (R77: the word; R101: the timing). -/
theorem exec_retimed (i : Instr) (s : State) (tp : List Inputs) (n : Nat) (t : State) (h : exec i s = .next t) :
    exec i (retimed s s.inp tp n) = .next (retimed t s.inp tp n) := by
  cases i <;> simp only [exec, execInit, execCmd, execData, execClear, execHome, execGoto, execPutc, Host.Outcome.next.injEq] at h ⊢ <;> subst h
  · have : (retimed s s.inp tp n).inited = s.inited := rfl
    rw [this]; split
    · exact illegalRequest_retimed ..
    · exact accept_retimed _ _ _ { s with inited := true, lineIdx := 0 } tp n
  · rw [← whenInited_retimed]; congr 1; exact accept_retimed ..
  · rw [← whenInited_retimed]; congr 1; exact accept_retimed ..
  · rw [← whenInited_retimed]; congr 1; exact accept_retimed _ _ _ { s with lineIdx := 0 } tp n
  · rw [← whenInited_retimed]; congr 1; exact accept_retimed _ _ _ { s with lineIdx := 0 } tp n
  · rw [← whenInited_retimed]; congr 1
    have : (retimed s s.inp tp n).cfg.lines = s.cfg.lines := rfl
    rw [this]; split
    · exact illegalRequest_retimed ..
    · exact accept_retimed ..
  · rw [← whenInited_retimed]; congr 1
    have h1 : (retimed s s.inp tp n).cfg.chFf = s.cfg.chFf := rfl
    have h2 : (retimed s s.inp tp n).cfg.chNl = s.cfg.chNl := rfl
    rw [h1, h2]; split
    · exact accept_retimed _ _ _ { s with lineIdx := 0 } tp n
    · split
      · exact accept_retimed _ _ _ { s with lineIdx := nextLine s.cfg s.lineIdx } tp n
      · exact accept_retimed ..

/-- An edge of a cycle that is no extra one is an edge of the reference timing (R101). -/
theorem edge_retimed (s u : State) (tp : List Inputs) (n : Nat) (h : edge s = .next u) (hx : extraCycle s = false) :
    edge (retimed s s.inp tp n) = .next (retimed u s.inp tp n) := by
  have hx' : extraCycle (retimed s s.inp tp n) = false := by simp [extraCycle, retimed, reference, Config.reference]
  rcases edge_cases h with ⟨hr, rfl⟩ | ⟨h1, _⟩ | ⟨hr, _, cur, rest, hs, rfl⟩ | ⟨hr, hs, hv, ha⟩ | ⟨hr, hs, hv, rfl⟩
  · simp only [edge, show (retimed s s.inp tp n).inp.rst = true from hr, if_true]; rfl
  · simp [hx] at h1
  · simp only [edge, show (retimed s s.inp tp n).inp.rst = false from hr, hx', show (retimed s s.inp tp n).seq = _ from hs, advance_retimed]; rfl
  · simp only [edge, show (retimed s s.inp tp n).inp.rst = false from hr, hx', show (retimed s s.inp tp n).seq = _ from hs, show (retimed s s.inp tp n).inp.reqValid = _ from hv]
    simp only [acceptRequest] at ha ⊢
    rw [show (retimed s s.inp tp n).inp = s.inp from rfl]
    split at ha
    · rename_i i he
      simp; exact exec_retimed _ _ _ _ _ ha
    · rename_i e he
      simp only [Host.Outcome.next.injEq] at ha; subst ha
      simp; exact illegalRequest_retimed ..
  · have a1 : (retimed u u.inp tp n).inp.rst = false := hr
    have a2 : (retimed u u.inp tp n).seq = .idle := hs
    have a3 : (retimed u u.inp tp n).inp.reqValid = false := hv
    simp [edge, a1, hx', a2, a3]

/-- An edge leaves what drives the ports as it is. -/
theorem edge_env (s u : State) (h : edge s = .next u) : u.inp = s.inp ∧ u.tape = s.tape ∧ u.tick = s.tick := by
  rcases edge_cases h with ⟨hr, rfl⟩ | ⟨h1, rfl⟩ | ⟨hr, _, cur, rest, hs, rfl⟩ | ⟨hr, hs, hv, ha⟩ | ⟨hr, hs, hv, rfl⟩
  · exact ⟨rfl, rfl, rfl⟩
  · exact ⟨rfl, rfl, rfl⟩
  · simp only [advance]; split
    · rcases cur with op | k | ⟨kind, ph⟩
      · simp [finish]
      · simp [finish]
      · cases ph
        · exact ⟨rfl, rfl, rfl⟩
        · cases kind <;> exact ⟨rfl, rfl, rfl⟩
        · cases kind <;> simp only [finish, endPulse, pollTest] <;> (try split) <;> simp
    · exact ⟨rfl, rfl, rfl⟩
  · unfold acceptRequest at ha
    split at ha
    · rename_i i he
      rcases exec_cases i s with ⟨c, h⟩ | ⟨v, r, e, l, m, h, _⟩ <;> rw [h] at ha <;> injection ha with ha <;> subst ha <;> simp [accept]
    · injection ha with ha; subst ha; simp
  · exact ⟨rfl, rfl, rfl⟩

end Sys2Proof.Machine
end

