-- ==== Sys2Proof/Laws/Run.lean ====
section
/-! SUPPORT. Runs of many cycles: what each bus primitive does from its first cycle to the first cycle after it. A run of an
expansion is these lemmas one after another, put together by `runs_append`. -/
namespace Sys2Proof.Machine

/-! ## The environment some cycles later -/

/-- The state with the input levels of `n` cycles later, and no register changed. -/
def later (n : Nat) (s : State) : State :=
  { s with inp := inputAt s n, tape := s.tape.drop n, tick := s.tick + n }

@[simp] theorem later_cfg (n : Nat) (s : State) : (later n s).cfg = s.cfg := rfl
@[simp] theorem later_rsQ (n : Nat) (s : State) : (later n s).rsQ = s.rsQ := rfl
@[simp] theorem later_rwQ (n : Nat) (s : State) : (later n s).rwQ = s.rwQ := rfl
@[simp] theorem later_eQ (n : Nat) (s : State) : (later n s).eQ = s.eQ := rfl
@[simp] theorem later_dbQ (n : Nat) (s : State) : (later n s).dbQ = s.dbQ := rfl
@[simp] theorem later_oeQ (n : Nat) (s : State) : (later n s).oeQ = s.oeQ := rfl
@[simp] theorem later_statQ (n : Nat) (s : State) : (later n s).statQ = s.statQ := rfl
@[simp] theorem later_lineIdx (n : Nat) (s : State) : (later n s).lineIdx = s.lineIdx := rfl
@[simp] theorem later_inited (n : Nat) (s : State) : (later n s).inited = s.inited := rfl
@[simp] theorem later_errQ (n : Nat) (s : State) : (later n s).errQ = s.errQ := rfl
@[simp] theorem later_causeQ (n : Nat) (s : State) : (later n s).causeQ = s.causeQ := rfl
@[simp] theorem later_valQ (n : Nat) (s : State) : (later n s).valQ = s.valQ := rfl
@[simp] theorem later_rselQ (n : Nat) (s : State) : (later n s).rselQ = s.rselQ := rfl
@[simp] theorem later_seq (n : Nat) (s : State) : (later n s).seq = s.seq := rfl
@[simp] theorem later_dly (n : Nat) (s : State) : (later n s).dly = s.dly := rfl
@[simp] theorem later_inp (n : Nat) (s : State) : (later n s).inp = inputAt s n := rfl

theorem later_zero (s : State) : later 0 s = s := rfl

/-- Only what drives the ports decides their levels. -/
theorem inputAt_congr {s t : State} (hi : t.inp = s.inp) (ht : t.tape = s.tape) (hk : t.tick = s.tick) (j : Nat) :
    inputAt t j = inputAt s j := by
  cases j <;> simp [inputAt, hi, ht, hk]

@[simp] theorem inputAt_later (n j : Nat) (s : State) : inputAt (later n s) j = inputAt s (n + j) := by
  cases j with
  | zero => rfl
  | succ j =>
    show ((s.tape.drop n)[j]?).getD _ = ((s.tape)[n + j]?).getD _
    rw [List.getElem?_drop]
    show _ = ((s.tape)[n + j]?).getD (Config.freeInputs (s.tick + (n + j + 1)))
    simp [later, Nat.add_assoc]

@[simp] theorem later_later (m n : Nat) (s : State) : later n (later m s) = later (m + n) s := by
  have h := inputAt_later m n s
  simp only [later] at h ⊢
  rw [h, List.drop_drop, Nat.add_assoc]

theorem nextInputs_eq_later (s : State) : nextInputs s = later 1 s := by
  simp [nextInputs, later]

/-- `load` commutes with the passing of cycles. -/
theorem load_later (l : List Prim) (n : Nat) (s : State) : load l (later n s) = later n (load l s) := by
  have h : inputAt (load l s) n = inputAt s n := inputAt_congr (by simp) (by simp) (by simp) n
  rw [later, later, load_env, h, load_tape, load_tick]

@[simp] theorem inputAt_load (l : List Prim) (s : State) (j : Nat) : inputAt (load l s) j = inputAt s j :=
  inputAt_congr (by simp) (by simp) (by simp) j

@[simp] theorem inputAt_applyLine (op : LineOp) (s : State) (j : Nat) : inputAt (applyLine op s) j = inputAt s j :=
  inputAt_congr (by simp) (by simp) (by simp) j

/-- A one-cycle primitive commutes with the passing of cycles. -/
theorem applyLine_later (op : LineOp) (n : Nat) (s : State) : applyLine op (later n s) = later n (applyLine op s) := by
  cases op with
  | setRs v => cases v <;> rfl
  | setRw v => rfl
  | setDir d => cases d <;> rfl
  | put8 b => cases b <;> rfl
  | putHi b => cases b <;> rfl
  | putLo b => cases b <;> rfl

/-- Only the build and what drives the ports decide whether some cycles are steady. -/
theorem steady_congr {s t : State} {n : Nat} (hc : t.cfg = s.cfg) (hi : t.inp = s.inp) (ht : t.tape = s.tape)
    (hk : t.tick = s.tick) (h : steady s n) : steady t n :=
  fun j hj => by rw [hc, inputAt_congr hi ht hk]; exact h j hj

/-- The first of some steady cycles are steady, and those after them. -/
theorem steady_split {s : State} {m n : Nat} (h : steady s (m + n)) : steady s m ∧ steady (later m s) n :=
  ⟨fun j hj => h j (by omega), fun j hj => by rw [inputAt_later]; exact h _ (by omega)⟩

/-! ## Runs -/

/-- `n` cycles from `s` record the events `es` and lead to `t`; `k` cycles went before. -/
def Runs (k n : Nat) (s : State) (es : List (Nat × BusEvent)) (t : State) : Prop := traceFrom k n s = some (es, t)

theorem runs_zero (k : Nat) (s : State) : Runs k 0 s [] s := rfl

/-- One cycle. -/
theorem runs_one {k : Nat} {s t : State} (h : step s = .next t) :
    Runs k 1 s ((busEvent s t).map fun e => (k + 1, e)).toList t := by
  simp [Runs, traceFrom, h]

/-- One run after another. -/
theorem runs_append {m : Nat} : ∀ {k n : Nat} {s t u : State} {es es' : List (Nat × BusEvent)},
    Runs k m s es t → Runs (k + m) n t es' u → Runs k (m + n) s (es ++ es') u := by
  induction m with
  | zero =>
    intro k n s t u es es' h h'
    simp only [Runs, traceFrom, Option.some.injEq, Prod.mk.injEq] at h
    obtain ⟨rfl, rfl⟩ := h
    simpa using h'
  | succ m ih =>
    intro k n s t u es es' h h'
    rw [Nat.succ_add]
    unfold Runs traceFrom at h ⊢
    split at h
    · rename_i v hv
      split at h
      · rename_i es0 w h0
        have h1 := ih (k := k + 1) h0 (n := n) (u := u) (es' := es') (by
          simp only [Option.some.injEq, Prod.mk.injEq] at h
          obtain ⟨rfl, rfl⟩ := h
          rwa [Nat.add_right_comm])
        simp only [Option.some.injEq, Prod.mk.injEq] at h
        obtain ⟨rfl, rfl⟩ := h
        unfold Runs at h1
        rw [h1, List.append_assoc]
      · cases h
    · cases h
    · cases h

/-- One run after another, with the number of cycles and the events as they are wanted. -/
theorem runs_then {k m n l : Nat} {s t u : State} {es es' es'' : List (Nat × BusEvent)}
    (h : Runs k m s es t) (h' : Runs (k + m) n t es' u) (hl : l = m + n) (he : es'' = es ++ es') :
    Runs k l s es'' u := by
  subst hl he
  exact runs_append h h'

/-! ## The delay counter -/

/-- The counter counts down inside a phase, and nothing else changes (R115). -/
theorem runs_count {cur : Cur} {rest : List Prim} : ∀ (d k : Nat) (s : State), s.cfg.conforming = true →
    steady s d → s.seq = .run cur rest → s.dly = d → Runs k d s [] { later d s with dly := 0 } := by
  intro d
  induction d with
  | zero =>
    intro k s _ _ _ hd
    have h : ({ later 0 s with dly := 0 } : State) = s := by
      cases s
      cases hd
      rfl
    rw [h]
    exact runs_zero k s
  | succ d ih =>
    intro k s hc hr hs hd
    obtain ⟨h0, hx⟩ : s.inp.rst = false ∧ (s.cfg.stretches = true → s.inp.extra = false) := hr 0 (by omega)
    have hstep : step s = .next (later 1 { s with dly := d }) := by
      rw [step_run hc h0 (extraCycle_of_reference hx) hs, nextInputs_eq_later, advance, if_neg (by omega), hd]
      rfl
    have h1 := runs_one (k := k) hstep
    have hev : busEvent s (later 1 { s with dly := d }) = none := by
      simp [busEvent]
    rw [hev] at h1
    have h2 := ih (k + 1) (later 1 { s with dly := d }) hc
      ((steady_split (m := 1) (steady_congr (t := { s with dly := d }) rfl rfl rfl rfl
        (by rwa [Nat.add_comm 1 d]))).2) hs rfl
    have h3 := runs_append h1 h2
    rw [Nat.add_comm 1 d] at h3
    have h4 : ({ later d (later 1 { s with dly := d }) with dly := 0 } : State) = { later (d + 1) s with dly := 0 } := by
      rw [later_later, Nat.add_comm 1 d]
      simp only [later]
      rw [inputAt_congr (t := { s with dly := d }) (s := s) rfl rfl rfl]
    rw [h4] at h3
    exact h3

/-- A whole phase: the counter runs out and then the phase is finished (R115). -/
theorem runs_phase {cur : Cur} {rest : List Prim} {k N : Nat} {s : State} (hc : s.cfg.conforming = true)
    (hN : 1 ≤ N) (hr : steady s N) (hs : s.seq = .run cur rest) (hd : s.dly = N - 1) :
    Runs k N s
      ((busEvent { later (N - 1) s with dly := 0 }
        (nextInputs (finish cur rest { later (N - 1) s with dly := 0 }))).map fun e => (k + N, e)).toList
      (nextInputs (finish cur rest { later (N - 1) s with dly := 0 })) := by
  have h1 := runs_count (k := k) (N - 1) s hc (fun j hj => hr j (by omega)) hs hd
  have h2 : step { later (N - 1) s with dly := 0 } = .next (nextInputs (finish cur rest { later (N - 1) s with dly := 0 })) := by
    rw [step_run (s := { later (N - 1) s with dly := 0 }) (cur := cur) (rest := rest) hc (hr (N - 1) (by omega)).1
      (extraCycle_of_reference (hr (N - 1) (by omega)).2) hs]
    rfl
  have h3 := runs_then h1 (runs_one (k := k + (N - 1)) h2) (l := N) (by omega) rfl
  have h4 : k + (N - 1) + 1 = k + N := by omega
  rw [h4, List.nil_append] at h3
  exact h3

/-! ## The primitives -/

/-- A one-cycle primitive makes its write and takes one cycle (R102 to R107). -/
theorem runs_line {op : LineOp} {rest : List Prim} {k : Nat} {s : State} (hc : s.cfg.conforming = true)
    (he : s.eQ = false) (hr : steady s 1) :
    Runs k 1 (load (.line op :: rest) s) [] (load rest (later 1 (applyLine op s))) := by
  have h := runs_phase (k := k) (N := 1) (s := load (.line op :: rest) s) (cur := .line op) (rest := rest) (by simpa)
    (by omega) (fun j hj => by simpa using hr j hj) rfl rfl
  have hf : nextInputs (finish (.line op) rest { later (1 - 1) (load (.line op :: rest) s) with dly := 0 })
      = load rest (later 1 (applyLine op s)) := by
    rw [load_later, nextInputs_eq_later]
    exact congrArg (later 1) (load_seq_dly rest (applyLine op s) _ _)
  rw [hf] at h
  have hev : busEvent { later (1 - 1) (load (.line op :: rest) s) with dly := 0 } (load rest (later 1 (applyLine op s))) = none := by
    simp [busEvent, load, he]
  rw [hev] at h
  exact h

/-- A WAIT takes N_k cycles in which every register holds; with N_k = 0 it takes none (R111). -/
theorem runs_wait {d : Delay} {rest : List Prim} {k : Nat} {s : State} (hc : s.cfg.conforming = true)
    (he : s.eQ = false) (hr : steady s (delayCycles s.cfg d)) :
    Runs k (delayCycles s.cfg d) (load (.wait d :: rest) s) [] (load rest (later (delayCycles s.cfg d) s)) := by
  by_cases h0 : delayCycles s.cfg d = 0
  · rw [h0, load_wait_zero _ _ _ h0]
    exact runs_zero _ _
  · rw [load_wait_pos _ _ _ h0]
    obtain ⟨N, hN⟩ : ∃ N, delayCycles s.cfg d = N + 1 := ⟨_, (Nat.succ_pred h0).symm⟩
    rw [hN] at hr ⊢
    have h := runs_phase (k := k) (N := N + 1) (s := { s with seq := .run (.wait d) rest, dly := N + 1 - 1 })
      (cur := .wait d) (rest := rest) hc (by omega)
      (steady_congr rfl rfl rfl rfl hr) rfl rfl
    have hf : nextInputs (finish (.wait d) rest
        { later (N + 1 - 1) { s with seq := .run (.wait d) rest, dly := N + 1 - 1 } with dly := 0 })
        = load rest (later (N + 1) s) := by
      have h1 := load_seq_dly rest (later N s) (.run (.wait d) rest) 0
      rw [← later_later, ← nextInputs_eq_later, load_nextInputs, ← h1]
      simp only [finish, Nat.add_sub_cancel, later]
      rw [inputAt_congr (t := { s with seq := .run (.wait d) rest, dly := N }) (s := s) rfl rfl rfl]
    rw [hf] at h
    have hev : busEvent { later (N + 1 - 1) { s with seq := .run (.wait d) rest, dly := N + 1 - 1 } with dly := 0 }
        (load rest (later (N + 1) s)) = none := by
      simp [busEvent, he]
    rw [hev] at h
    exact h

/-! ## Enable pulses -/

/-- The passing of cycles does not touch the sequencer, the enable or the counter. -/
theorem later_enterPhase (kind : PulseKind) (ph : PulsePhase) (rest : List Prim) (n : Nat) (s : State) :
    later n (enterPhase kind ph rest s) = enterPhase kind ph rest (later n s) := by
  simp only [later, enterPhase]
  rw [inputAt_congr (t := { s with seq := .run (.pulse kind ph) rest, eQ := ph == .hi, dly := phaseCycles s.cfg ph - 1 })
    (s := s) rfl rfl rfl]

/-- Entering a phase forgets the sequencer, the enable and the counter. -/
theorem enterPhase_idem (kind kind' : PulseKind) (ph ph' : PulsePhase) (rest rest' : List Prim) (s : State) (d : Nat) :
    enterPhase kind ph rest { enterPhase kind' ph' rest' s with dly := d } = enterPhase kind ph rest s := rfl

/-- What follows an enable pulse does not depend on where the sequencer and the counter stood. -/
theorem endPulse_seq_dly (kind : PulseKind) (rest : List Prim) (s : State) (q : Sequencer) (d : Nat) :
    endPulse kind rest { s with seq := q, dly := d } = endPulse kind rest s := by
  cases kind with
  | write => exact load_seq_dly _ _ _ _
  | read part => exact load_seq_dly _ _ _ _
  | poll4Hi => simp only [endPulse, startPulse]; split <;> rfl
  | poll8 =>
    simp only [endPulse, pollTest]
    split
    · simp only [startPulse]; split <;> rfl
    · exact load_seq_dly _ _ _ _
  | poll4Lo =>
    simp only [endPulse, pollTest]
    split
    · simp only [startPulse]; split <;> rfl
    · exact load_seq_dly _ _ _ _

/-- The first cycle of a pulse commutes with the passing of cycles. -/
theorem startPulse_later (kind : PulseKind) (rest : List Prim) (n : Nat) (s : State) :
    startPulse kind rest (later n s) = later n (startPulse kind rest s) := by
  by_cases h : s.cfg.nSu = 0 <;> simp only [startPulse, later_cfg, h, if_true, if_false]
  · exact (later_enterPhase _ _ _ _ _).symm
  · exact (later_enterPhase _ _ _ _ _).symm

/-- The poll test commutes with the passing of cycles. -/
theorem pollTest_later (again : PulseKind) (rest : List Prim) (n : Nat) (s : State) :
    pollTest again rest (later n s) = later n (pollTest again rest s) := by
  by_cases h : busyFlag s.cfg s.statQ = true <;> simp only [pollTest, later_cfg, later_statQ, h, if_true]
  · exact startPulse_later _ _ _ _
  · exact load_later _ _ _

/-- What follows a pulse commutes with the passing of cycles. -/
theorem endPulse_later (kind : PulseKind) (rest : List Prim) (n : Nat) (s : State) :
    endPulse kind rest (later n s) = later n (endPulse kind rest s) := by
  cases kind with
  | write => exact load_later _ _ _
  | read part => exact load_later _ _ _
  | poll4Hi => exact startPulse_later _ _ _ _
  | poll8 => exact pollTest_later _ _ _ _
  | poll4Lo => exact pollTest_later _ _ _ _

/-- The setup phase (R108). -/
theorem runs_su {kind : PulseKind} {rest : List Prim} {k : Nat} {s : State} (hc : s.cfg.conforming = true)
    (h0 : s.cfg.nSu ≠ 0) (hr : steady s s.cfg.nSu) :
    Runs k s.cfg.nSu (enterPhase kind .su rest s) [] (enterPhase kind .hi rest (later s.cfg.nSu s)) := by
  have h := runs_phase (k := k) (N := s.cfg.nSu) (s := enterPhase kind .su rest s) (cur := .pulse kind .su) (rest := rest)
    hc (by omega) (steady_congr rfl rfl rfl rfl hr) rfl rfl
  have hf : nextInputs (finish (.pulse kind .su) rest { later (s.cfg.nSu - 1) (enterPhase kind .su rest s) with dly := 0 })
      = enterPhase kind .hi rest (later s.cfg.nSu s) := by
    have h1 : s.cfg.nSu - 1 + 1 = s.cfg.nSu := by omega
    rw [later_enterPhase]
    show nextInputs (enterPhase kind .hi rest (later (s.cfg.nSu - 1) s)) = _
    rw [nextInputs_eq_later, later_enterPhase, later_later, h1]
  rw [hf] at h
  have hev : busEvent { later (s.cfg.nSu - 1) (enterPhase kind .su rest s) with dly := 0 }
      (enterPhase kind .hi rest (later s.cfg.nSu s)) = none := by
    simp [busEvent]
  rw [hev] at h
  exact h

/-- The event of the pulse whose last high cycle `s` is in (R69). -/
def fallEvent (s : State) : BusEvent :=
  if s.rwQ then .read s.rsQ s.inp.lcdDbI else .write s.rsQ (busData s)

/-- Every fall of the enable has its event, and there is no other (R69); without a reset it is the pulse's own. -/
theorem busEvent_no_reset {s t : State} (hr : s.inp.rst = false) :
    busEvent s t = if s.eQ && !t.eQ then some (fallEvent s) else none := by
  simp only [busEvent, fallEvent, hr, Bool.false_and, Bool.false_eq_true, if_false]
  split
  · split <;> rfl
  · rfl

/-- With a reset the enable always falls, and a read pulse's event has a sample in the sampling cycle only (R69, log 11). -/
theorem busEvent_resetEdge {s : State} (hr : s.inp.rst = true) :
    busEvent s (nextInputs (resetEdge s)) = if s.eQ then
      some (if s.rwQ then if sampling s then .read s.rsQ s.inp.lcdDbI else .readCut s.rsQ else .write s.rsQ (busData s))
      else none := by
  cases he : s.eQ <;> cases hw : s.rwQ <;> cases hs : sampling s <;> simp [busEvent, he, hw, hs, hr]

/-- The high phase: the fall of the enable is the bus event, and a read pulse samples in the last cycle (R69, R110). -/
theorem runs_hi {kind : PulseKind} {rest : List Prim} {k : Nat} {s : State} (hc : s.cfg.conforming = true)
    (hr : steady s s.cfg.nEpw) :
    Runs k s.cfg.nEpw (enterPhase kind .hi rest s) [(k + s.cfg.nEpw, fallEvent (later (s.cfg.nEpw - 1) s))]
      (enterPhase kind .eh rest (later 1 (takeSample kind (later (s.cfg.nEpw - 1) s)))) := by
  have hN := conforming_epw hc
  have h := runs_phase (k := k) (N := s.cfg.nEpw) (s := enterPhase kind .hi rest s) (cur := .pulse kind .hi) (rest := rest)
    hc hN (steady_congr rfl rfl rfl rfl hr) rfl rfl
  have hf : nextInputs (finish (.pulse kind .hi) rest { later (s.cfg.nEpw - 1) (enterPhase kind .hi rest s) with dly := 0 })
      = enterPhase kind .eh rest (later 1 (takeSample kind (later (s.cfg.nEpw - 1) s))) := by
    rw [later_enterPhase, nextInputs_eq_later, ← later_enterPhase]
    cases kind <;> rfl
  rw [hf] at h
  have hev : busEvent { later (s.cfg.nEpw - 1) (enterPhase kind .hi rest s) with dly := 0 }
      (enterPhase kind .eh rest (later 1 (takeSample kind (later (s.cfg.nEpw - 1) s))))
      = some (fallEvent (later (s.cfg.nEpw - 1) s)) := by
    have hrst : (inputAt s (s.cfg.nEpw - 1)).rst = false := (hr _ (by omega)).1
    rw [later_enterPhase]
    by_cases hw : s.rwQ = true <;> simp [busEvent, fallEvent, hrst, busData, hw]
  rw [hev] at h
  exact h

/-- The hold phase (R108). -/
theorem runs_eh {kind : PulseKind} {rest : List Prim} {k : Nat} {s : State} (hc : s.cfg.conforming = true)
    (he : s.eQ = false) (hr : steady s s.cfg.nEh) :
    Runs k s.cfg.nEh (enterPhase kind .eh rest s) [] (endPulse kind rest (later s.cfg.nEh s)) := by
  have hN := conforming_eh hc
  have h := runs_phase (k := k) (N := s.cfg.nEh) (s := enterPhase kind .eh rest s) (cur := .pulse kind .eh) (rest := rest)
    hc hN (steady_congr rfl rfl rfl rfl hr) rfl rfl
  have hf : nextInputs (finish (.pulse kind .eh) rest { later (s.cfg.nEh - 1) (enterPhase kind .eh rest s) with dly := 0 })
      = endPulse kind rest (later s.cfg.nEh s) := by
    have h1 : s.cfg.nEh - 1 + 1 = s.cfg.nEh := by omega
    have h2 : ({ enterPhase kind .eh rest (later (s.cfg.nEh - 1) s) with dly := 0 } : State)
        = { later (s.cfg.nEh - 1) s with seq := .run (.pulse kind .eh) rest, dly := 0 } := by
      simp only [enterPhase]
      rw [show (PulsePhase.eh == PulsePhase.hi) = (later (s.cfg.nEh - 1) s).eQ from he.symm]
    rw [later_enterPhase, h2, nextInputs_eq_later]
    show later 1 (endPulse kind rest _) = _
    rw [endPulse_seq_dly, ← endPulse_later, later_later, h1]
  rw [hf] at h
  have hev : busEvent { later (s.cfg.nEh - 1) (enterPhase kind .eh rest s) with dly := 0 }
      (endPulse kind rest (later s.cfg.nEh s)) = none := by
    simp [busEvent]
  rw [hev] at h
  exact h

/-- The state in the first cycle after a pulse that began in `s`, but for the sequencer: only a read pulse's sample
changed it (R108, R110). -/
def afterPulse (kind : PulseKind) (s : State) : State :=
  later (s.cfg.nEh + 1) (takeSample kind (later (s.cfg.nSu + (s.cfg.nEpw - 1)) s))

/-- A whole enable pulse: N_P cycles, one bus event at the fall, the sample (R101, R108, R110). -/
theorem runs_pulse {kind : PulseKind} {rest : List Prim} {k : Nat} {s : State} (hc : s.cfg.conforming = true)
    (he : s.eQ = false) (hr : steady s (pulseCycles s.cfg)) :
    Runs k (pulseCycles s.cfg) (startPulse kind rest s)
      [(k + s.cfg.nSu + s.cfg.nEpw, fallEvent (later (s.cfg.nSu + (s.cfg.nEpw - 1)) s))]
      (endPulse kind rest (afterPulse kind s)) := by
  have hN := conforming_epw hc
  unfold pulseCycles at hr
  rw [Nat.add_assoc] at hr
  have hsu := (steady_split hr).1
  have hrest := (steady_split hr).2
  have hhi := (steady_split hrest).1
  have heh := (steady_split hrest).2
  have h1 : Runs k s.cfg.nSu (startPulse kind rest s) [] (enterPhase kind .hi rest (later s.cfg.nSu s)) := by
    unfold startPulse
    split
    · rename_i h0
      rw [h0]
      exact runs_zero _ _
    · rename_i h0
      exact runs_su hc h0 hsu
  have h2 := runs_hi (kind := kind) (rest := rest) (k := k + s.cfg.nSu) (s := later s.cfg.nSu s) hc hhi
  simp only [later_cfg, later_later] at h2
  have h3 := runs_eh (kind := kind) (rest := rest) (k := k + s.cfg.nSu + s.cfg.nEpw)
    (s := later 1 (takeSample kind (later (s.cfg.nSu + (s.cfg.nEpw - 1)) s))) (by simpa using hc) (by simpa using he)
    (fun j hj => by
      have h := heh j (by simpa using hj)
      rw [later_later, inputAt_later] at h
      have h4 : s.cfg.nSu + s.cfg.nEpw + j = s.cfg.nSu + (s.cfg.nEpw - 1) + (1 + j) := by omega
      rw [inputAt_later, inputAt_congr (s := later (s.cfg.nSu + (s.cfg.nEpw - 1)) s) (by simp) (by simp) (by simp),
        inputAt_later, ← h4]
      simpa using h)
  simp only [later_cfg, later_later, takeSample_cfg] at h3
  have h5 := runs_then (runs_append h1 h2) (k := k) (by rw [← Nat.add_assoc]; exact h3) (l := pulseCycles s.cfg) (by rfl) rfl
  rw [Nat.add_comm 1 s.cfg.nEh] at h5
  exact h5

end Sys2Proof.Machine
end

