-- ==== Sys2Proof/Tests/Slice0.lean ====
section
/-! SUPPORT. Tests of the model, with expected results from the spec's vectors (95_test_vectors.md) and tables, and for every
statement with hypotheses a state and operands that meet them. -/
namespace Sys2Proof.Tests
open Sys2Proof Sys2Proof.Machine Sys2Proof.Safety

/-! ## States to test with -/

/-- The build T8 at TC. -/
def tcT8 : Config := Config.tc .eight .timed

/-- No reset, no request, the display answering 0x00. -/
def quiet : Inputs := { rst := false, reqValid := false, reqWord := 0, lcdDbI := 0, extra := false }

/-- IDLE and initialised, at the configuration TC, with `line_idx = 1`. -/
def ready (w : BusWidth) (b : BusyMode) : State :=
  { State.resetOf (Config.tc w b) with inited := true, lineIdx := 1 }

/-- A word on the request port, then `n` quiet cycles. -/
def offered (word : ReqWord) (n : Nat) (s : State) : State :=
  { s with inp := { quiet with reqValid := true, reqWord := word }, tape := List.replicate n quiet }

/-- The first cycle of the given primitives, run by a ready block. -/
def running (w : BusWidth) (b : BusyMode) (l : List Prim) : State := load l (ready w b)

/-- A property of the next state, false where there is none. -/
def nextSat (o : Host.Outcome State Fault Refusal) (p : State → Bool) : Bool :=
  match o with
  | .next t => p t
  | .fault _ => false
  | .refused _ => false

/-! ## WellFormed refuses what breaks each check -/

theorem test_operand_of_cmd_too_wide : assemble (.cmd (.num 256)) = none := by decide
theorem test_operand_of_data_too_wide : assemble (.data (.num 256)) = none := by decide
theorem test_operand_of_putc_too_wide : assemble (.putc (.num 256)) = none := by decide
theorem test_column_of_goto_too_wide : assemble (.goto (.num 256) (.num 0)) = none := by decide
theorem test_line_of_goto_too_wide : assemble (.goto (.num 0) (.num 4)) = none := by decide
theorem test_character_outside_ascii : assemble (.putc (.chr 'é')) = none := by decide
theorem test_widest_operands_assemble :
    assemble (.goto (.num 255) (.num 3)) = some [0x5CFF] ∧ assemble (.data (.chr 'A')) = some [0x2041] := by decide

/-- R10: DLY_W is at least 1. -/
theorem test_counter_without_bits : { Config.tc .eight .timed with dlyW := 0 }.conforming = false := by decide
/-- R12: the longest phase must fit in DLY_W bits; 16 fits in 4 bits and 17 does not. -/
theorem test_count_too_long :
    { Config.tc .eight .timed with nPower := 16 }.conforming = true ∧
    { Config.tc .eight .timed with nPower := 17 }.conforming = false ∧
    { Config.tc .eight .timed with nR1 := 17 }.conforming = false ∧
    { Config.tc .eight .timed with nR2 := 17 }.conforming = false ∧
    { Config.tc .eight .timed with nR3 := 17 }.conforming = false ∧
    { Config.tc .eight .timed with nTrail := 17 }.conforming = false ∧
    { Config.tc .eight .timed with nSwitch := 17 }.conforming = false ∧
    { Config.tc .eight .timed with nByte := 17 }.conforming = false ∧
    { Config.tc .eight .timed with nClear := 17 }.conforming = false ∧
    { Config.tc .eight .timed with nSu := 17 }.conforming = false ∧
    { Config.tc .eight .timed with nEpw := 17 }.conforming = false ∧
    { Config.tc .eight .timed with nEh := 17 }.conforming = false := by decide
/-- R12: which counts must be at least 1. -/
theorem test_count_of_zero :
    { Config.tc .eight .timed with nPower := 0 }.conforming = false ∧
    { Config.tc .eight .timed with nR1 := 0 }.conforming = false ∧
    { Config.tc .eight .timed with nR2 := 0 }.conforming = false ∧
    { Config.tc .eight .timed with nR3 := 0 }.conforming = false ∧
    { Config.tc .eight .timed with nByte := 0 }.conforming = false ∧
    { Config.tc .eight .timed with nClear := 0 }.conforming = false ∧
    { Config.tc .eight .timed with nEpw := 0 }.conforming = false ∧
    { Config.tc .eight .timed with nEh := 0 }.conforming = false ∧
    { Config.tc .eight .timed with nSu := 0, nTrail := 0, nSwitch := 0 }.conforming = true := by decide

/-- R10, R11: this hardware has two lines, sixteen columns and the table of sixteen columns. -/
theorem test_other_geometry :
    { tcT8 with lines := 4 }.conforming = false ∧ { tcT8 with cols := 20, lineBase := lineBaseTable 20 }.conforming = false ∧
    { tcT8 with lineBase := lineBaseTable 20 }.conforming = false := by decide

/-- A clock of 1 MHz, and the times of a display in whole microseconds. -/
def timing1MHz : Timing where
  fClk := 1000000
  tPower := 15 / 1000
  tR1 := 41 / 10000
  tR2 := 1 / 10000
  tR3 := 37 / 1000000
  tTrail := 0
  tSwitch := 37 / 1000000
  tByte := 37 / 1000000
  tClear := 152 / 100000
  tEpw := 230 / 1000000000
  tSu := 40 / 1000000000
  tEh := 10 / 1000000000

/-- R10: F_CLK > 0, and no time is negative. -/
theorem test_ill_formed_timing :
    timing1MHz.wellFormed = true ∧ { timing1MHz with fClk := 0 }.wellFormed = false ∧
    { timing1MHz with tPower := -1 }.wellFormed = false ∧ { timing1MHz with tR1 := -1 }.wellFormed = false ∧
    { timing1MHz with tR2 := -1 }.wellFormed = false ∧ { timing1MHz with tR3 := -1 }.wellFormed = false ∧
    { timing1MHz with tTrail := -1 }.wellFormed = false ∧ { timing1MHz with tSwitch := -1 }.wellFormed = false ∧
    { timing1MHz with tByte := -1 }.wellFormed = false ∧ { timing1MHz with tClear := -1 }.wellFormed = false ∧
    { timing1MHz with tEpw := -1 }.wellFormed = false ∧ { timing1MHz with tSu := -1 }.wellFormed = false ∧
    { timing1MHz with tEh := -1 }.wellFormed = false := by decide +kernel

/-- The hypothesis of BuildOfTiming's second clause; the 230 ns of the enable pulse take one whole period (R12). -/
theorem witness_BuildOfTiming : (configOfTiming timing1MHz tcT8).map (fun d => (d.nR1, d.nEpw, d.nTrail)) = some (4100, 1, 0) := by
  decide +kernel

/-! ## Decoding: the words bit by bit, as `OP Y Z ARG` of R70 and R72 -/

theorem test_decode_init : decode (0b0000_00_00_00000000 : ReqWord) = .ok .init := by decide
theorem test_decode_cmd : decode (0b0001_00_00_00001111 : ReqWord) = .ok (.cmd 0x0F) := by decide
theorem test_decode_data : decode (0b0010_00_00_01000001 : ReqWord) = .ok (.data 0x41) := by decide
theorem test_decode_clear : decode (0b0011_00_00_00000000 : ReqWord) = .ok .clear := by decide
theorem test_decode_home : decode (0b0100_00_00_00000000 : ReqWord) = .ok .home := by decide
theorem test_decode_goto : decode (0b0101_01_00_00000101 : ReqWord) = .ok (.goto 5 1) := by decide
theorem test_decode_putc : decode (0b0110_00_00_01000001 : ReqWord) = .ok (.putc 0x41) := by decide
/-- V9.1, V8.2, V8.5: words that are no request. -/
theorem test_decode_rejects :
    decode 0x7000 = .error .reservedOpcode ∧ decode 0xFFFF = .error .reservedOpcode ∧ decode 0x8123 = .error .reservedOpcode ∧
    decode 0x0001 = .error .nonzeroField ∧ decode 0x0400 = .error .nonzeroField ∧ decode 0x0100 = .error .nonzeroField ∧
    decode 0x1100 = .error .nonzeroField ∧ decode 0x2441 = .error .nonzeroField ∧ decode 0x3001 = .error .nonzeroField ∧
    decode 0x3400 = .error .nonzeroField ∧ decode 0x5900 = .error .nonzeroField ∧ decode 0x640A = .error .nonzeroField := by
  decide
/-- V9.1: the cause of a word before INIT and after it, in the order of R220. -/
theorem test_check_order :
    check tcT8 0x0000 false = none ∧ check tcT8 0x0000 true = some .reInit ∧ check tcT8 0x0001 true = some .field ∧
    check tcT8 0x2041 false = some .noInit ∧ check tcT8 0x2041 true = none ∧ check tcT8 0x2141 false = some .field ∧
    check tcT8 0x5800 false = some .noInit ∧ check tcT8 0x5800 true = some .lineRange ∧ check tcT8 0x5900 true = some .field ∧
    check tcT8 0x7000 false = some .opcode ∧ check tcT8 0xF0FF true = some .opcode := by decide
/-- R77: a table row has 16 bits, and a word of more is no request. -/
theorem test_table_word : decodeTableWord 16 0x5405 = some (.goto 5 1) ∧ decodeTableWord 24 0x5405 = none := by decide
/-- R86, R87. -/
theorem test_pseudo_requests :
    assemble (.puts [0x41, 0x42, 0x00, 0x43]) = some [0x6041, 0x6042] ∧ assemble .newline = some [0x600A] ∧
    assemble .formfeed = some [0x600C] := by decide
/-- R88. -/
theorem test_api_calls :
    assemble (ApiCall.line (.goto 5 1)) = some [0x5405] ∧ assemble (ApiCall.line (.putString [0x41])) = some [0x6041] := by
  decide

/-! ## One edge of each request -/

/-- V6.1, V6.5: INIT from reset; the power-on wait of 10 cycles begins with `dly = 9`. -/
theorem test_init : nextSat (step (State.reset.withFetchWord 16 0x0000)) (fun t =>
    t.inited && t.valQ == 0x00 && t.dly == 9 && !reqReady t && !initDone t && t.dbQ == 0x00) = true := by decide
/-- PR4, request 3: a second INIT changes nothing but the status. -/
theorem test_init_twice : nextSat (exec .init (ready .eight .timed)) (fun t =>
    t == { ready .eight .timed with errQ := true, causeQ := 4 }) = true := by decide
/-- V8.6: CMD 0x01 leaves `line_idx` at 1; RS is 0. -/
theorem test_cmd : nextSat (exec (.cmd 0x01) (ready .eight .timed)) (fun t =>
    t.valQ == 0x01 && !t.rselQ && !t.rsQ && t.lineIdx == 1) = true := by decide
/-- PR4, request 1: CMD before INIT. -/
theorem test_cmd_before_init : nextSat (exec (.cmd 0x01) State.reset) (fun t =>
    t.errQ && t.causeQ == 3 && isIdle t && t.valQ == 0) = true := by decide
/-- V4.1, cycle 1: RS is 1 in the first cycle, the bus still holds its byte. -/
theorem test_data : nextSat (exec (.data 0x41) { ready .eight .timed with dbQ := 0x01 }) (fun t =>
    t.rsQ && t.dbQ == 0x01 && !t.eQ && t.oeQ) = true := by decide
/-- V4.2, cycle 1: a polled write begins with SETDIR(IN). -/
theorem test_data_polled : nextSat (exec (.data 0x41) (ready .eight .polled)) (fun t =>
    !t.rsQ && !t.rwQ && !t.oeQ && t.valQ == 0x41 && t.rselQ) = true := by decide
/-- V7.1: CLEAR from line 1. -/
theorem test_clear : nextSat (exec .clear (ready .eight .timed)) (fun t => t.lineIdx == 0 && t.valQ == 0x01) = true := by
  decide
/-- V7.2: HOME from line 1. -/
theorem test_home : nextSat (exec .home (ready .eight .timed)) (fun t => t.lineIdx == 0 && t.valQ == 0x02) = true := by
  decide
/-- V8.1: GOTO 255, 1 sends 0xBF, and `line_idx` is not written. -/
theorem test_goto : nextSat (exec (.goto 255 1) { ready .eight .timed with lineIdx := 0 }) (fun t =>
    t.valQ == 0xBF && t.lineIdx == 0 && !t.rselQ) = true := by decide
/-- V8.2: GOTO to line 2. -/
theorem test_goto_line_range : nextSat (exec (.goto 0 2) (ready .eight .timed)) (fun t =>
    t.errQ && t.causeQ == 5 && isIdle t) = true := by decide
/-- V8.4: the newline from line 1 sends 0x80. -/
theorem test_putc_newline : nextSat (exec (.putc 0x0A) (ready .eight .timed)) (fun t =>
    t.valQ == 0x80 && t.lineIdx == 0 && !t.rselQ) = true := by decide
/-- V8.3: a carriage return is ordinary data. -/
theorem test_putc_data : nextSat (exec (.putc 0x0D) (ready .eight .timed)) (fun t =>
    t.valQ == 0x0D && t.rselQ && t.lineIdx == 1) = true := by decide
/-- V9.2: the second error keeps the first cause. -/
theorem test_first_cause_is_kept :
    nextSat (step (offered 0x0001 1 { ready .eight .timed with errQ := true, causeQ := 1 })) (fun t =>
      t.causeQ == 1 && reqReady t) = true := by decide

/-! ## One cycle of a primitive -/

/-- V1.3. -/
theorem test_nibbles_on_the_bus :
    (applyLine (.putHi (.const 0x41)) (ready .four .timed)).dbQ = 0x40 ∧
    (applyLine (.putLo (.const 0xA5)) (ready .four .timed)).dbQ = 0x50 := by decide
/-- V1.4. -/
theorem test_status_samples : sampleInto .lo (sampleInto .hi 0x00 0x8F) 0x3F = 0x83 ∧ sampleInto .full 0x00 0x5A = 0x5A := by
  decide
/-- V1.1: the enable rises after the one setup cycle, and the counter starts at N_EPW - 1. -/
theorem test_enable_rises : nextSat (step (running .eight .timed [.pulse])) (fun t => t.eQ && t.dly == 1) = true := by decide
/-- V10.2: a reset in the high phase drops the enable; the event has the values of the cycle before. -/
theorem test_reset_in_high_phase :
    let s := { ready .eight .timed with
      seq := .run (.pulse .write .hi) [.wait .byte], eQ := true, dly := 1, rsQ := true, dbQ := 0x41,
      inp := { quiet with rst := true } }
    nextSat (step s) (fun t =>
      !t.eQ && !t.rsQ && t.dbQ == 0 && isIdle t && !t.inited && t.lineIdx == 0
        && busEvent s t == some (.write true (.byte 0x41))) = true := by decide
/-- V5.2, V5.3: only bit 7 is tested. -/
theorem test_busy_flag :
    busyFlag (Config.tc .eight .polled) 0x7F = false ∧ busyFlag (Config.tc .eight .polled) 0x80 = true := by decide
/-- R145 and R167 at TC: V4.5 and the table of section 1. -/
theorem test_cycle_counts :
    writeByteCycles (Config.tc .eight .polled) 3 = 23 ∧ writeByteCycles (Config.tc .four .polled) 2 = 32 ∧
    initCycles (Config.tc .eight .timed) 1 1 1 1 = 92 ∧ initCycles (Config.tc .eight .polled) 1 1 1 1 = 108 ∧
    initCycles (Config.tc .four .timed) 1 1 1 1 = 122 ∧ initCycles (Config.tc .four .polled) 1 1 1 1 = 154 := by decide
/-- V6.1, V6.3: the cycles of the function sets. -/
theorem test_function_set_cycles :
    functionSetCycles (Config.tc .eight .timed) = [16, 27, 35] ∧
    functionSetCycles (Config.tc .four .timed) = [16, 27, 35, 45] := by decide

/-! ## Witnesses: every statement's hypotheses can be met -/

/-- TC is a conforming build in every variant. -/
theorem tc_conforming (w : BusWidth) (b : BusyMode) : (Config.tc w b).conforming = true := by cases w <;> cases b <;> decide

/-- A ready block is well formed, in every build at TC. -/
theorem ready_ok (w : BusWidth) (b : BusyMode) : StateOk (ready w b) := by
  constructor <;> cases w <;> cases b <;> simp [ready, State.resetOf, seqOk, Config.tc, loNibble]

/-- What stands on the input ports does not matter for being well formed. -/
theorem ok_offered {s : State} (h : StateOk s) (word : ReqWord) (n : Nat) : StateOk (offered word n s) :=
  ⟨h.seq, h.timedLines, h.lowLines, h.cause, h.timedStat⟩

/-- While the tape is quiet no reset comes and no extra cycle. -/
theorem steady_offered (word : ReqWord) (n : Nat) (s : State) : steady (offered word n s) (n + 1) := by
  intro j hj
  cases j with
  | zero => exact ⟨rfl, fun _ => rfl⟩
  | succ j =>
    have : j < n := by omega
    simp [inputAt, offered, this, quiet]

/-- A display that answers 0x00 is never busy. -/
theorem answered_offered (word : ReqWord) (n k : Nat) (s : State) (hb : s.cfg.busyBit = 7) (hp : s.cfg.nEpw = 2)
    (hk : k + pulseCycles s.cfg + s.cfg.nSu + 1 ≤ n) (h0 : 1 ≤ k) : pollAnswered (offered word n s) k 0 := by
  have hq : ∀ j, 1 ≤ j → j ≤ n → (inputAt (offered word n s) j).lcdDbI = 0 := by
    intro j h1 h2
    obtain ⟨i, rfl⟩ : ∃ i, j = i + 1 := ⟨j - 1, by omega⟩
    have : i < n := by omega
    simp [inputAt, offered, this, quiet]
  refine ⟨fun j hj => absurd hj (by omega), ?_⟩
  have ha : ∀ j, j ≤ 1 → answer (offered word n s) k j = 0 := by
    intro j hj
    have : j * pulseCycles s.cfg ≤ pulseCycles s.cfg := by
      simpa using Nat.mul_le_mul_right (pulseCycles s.cfg) hj
    refine hq _ ?_ ?_ <;> simp only [offered, hp] <;> omega
  have hc : (offered word n s).cfg = s.cfg := rfl
  unfold sampledStatus busyFlag
  cases hw : s.cfg.width <;> simp [hc, hw, ha, hb, hiNibble]

theorem witness_EncodeOfDecode : decode 0x54FF = .ok (.goto 255 1) := by decide
theorem witness_DecoderRejects :
    7 ≤ (fieldOp 0x7000).toNat ∧ ((fieldOp 0x6100).toNat < 7 ∧ fieldZ 0x6100 ≠ 0) ∧
    ((fieldOp 0x6400).toNat < 7 ∧ fieldOp 0x6400 ≠ 5 ∧ fieldY 0x6400 ≠ 0) ∧
    ((fieldOp 0x4001).toNat < 7 ∧ fieldOp 0x4001 = 4 ∧ fieldArg 0x4001 ≠ 0) := by decide
theorem witness_AssemblerChecksOperands :
    (assemble (.cmd (.num 255))).isSome = true ∧ (assemble (.data (.num 255))).isSome = true ∧
    (assemble (.putc (.num 255))).isSome = true ∧ (assemble (.goto (.num 255) (.num 3))).isSome = true := by decide
theorem witness_PutsExpandsToPutc : (0 : Byte) ∉ [(0x41 : Byte), 0xFF] := by decide
theorem witness_StepRunsDecodedRequest :
    let s := offered 0x5405 1 (ready .eight .timed)
    s.cfg.conforming = true ∧ s.inp.rst = false ∧ s.seq = .idle ∧ s.inp.reqValid = true ∧
      decode s.inp.reqWord = .ok (.goto 5 1) := by decide
theorem witness_PlacedWordIsPresented : (65535 : Nat) < 65536 := by decide
theorem witness_IdleHolds :
    let s := ready .eight .timed
    s.cfg.conforming = true ∧ s.inp.rst = false ∧ s.seq = .idle ∧ s.inp.reqValid = false := by decide
/-- The first clause of IllegalRequestAction: one witness for each cause of R221. -/
theorem witness_IllegalRequestAction_illegal :
    let t := fun (inited : Bool) (w : ReqWord) => offered w 1 { ready .eight .timed with inited := inited }
    (∀ (inited : Bool) (w : ReqWord),
      (t inited w).cfg.conforming = true ∧ (t inited w).inp.rst = false ∧ (t inited w).seq = .idle ∧
        (t inited w).inp.reqValid = true ∧ (t inited w).inp.reqWord = w ∧ (t inited w).inited = inited) ∧
    check tcT8 0x7000 true = some .opcode ∧ check tcT8 0x6FFF true = some .field ∧ check tcT8 0x6041 false = some .noInit ∧
    check tcT8 0x0000 true = some .reInit ∧ check tcT8 0x5800 true = some .lineRange := by
  refine ⟨fun _ _ => ⟨tc_conforming _ _, rfl, rfl, rfl, rfl, rfl⟩, ?_⟩
  decide
/-- Its second clause, with an error recorded. -/
theorem witness_IllegalRequestAction_legal :
    let s := offered 0x54FF 1 { ready .four .polled with errQ := true, causeQ := 2 }
    s.cfg.conforming = true ∧ s.inp.rst = false ∧ s.seq = .idle ∧ s.inp.reqValid = true ∧
      check s.cfg s.inp.reqWord s.inited = none := by decide
theorem witness_RequestPortIgnoredInRun :
    let s := running .eight .timed [.wait .byte]
    s.seq = .run (.wait .byte) [] ∧ s.inp.rst = false := by decide

/-- The last high cycle of the high half of a 4-bit sample, in the middle of a WriteByte. -/
def samplingState : State :=
  { ready .four .polled with
    seq := .run (.pulse .poll4Hi .hi) [.line (.setDir .output), .line (.setRw false)], eQ := true, dly := 0,
    rwQ := true, oeQ := false, inp := { quiet with lcdDbI := 0x8F } }

theorem samplingState_ok : StateOk samplingState := by
  constructor <;> simp [samplingState, ready, State.resetOf, seqOk, Config.tc, loNibble, curCycles, phaseCycles, inHi,
    curIn, kindIn, primIn, lineOpIn, curAllowed, linesOf, Lines.allow, linesSafe, Lines.after]

/-- The last high cycle of a write pulse. -/
def pulsingState : State :=
  { ready .eight .timed with seq := .run (.pulse .write .hi) [.wait .byte], eQ := true, dly := 0, rsQ := true, dbQ := 0x41 }

theorem pulsingState_ok : StateOk pulsingState := by
  constructor <;> simp [pulsingState, ready, State.resetOf, seqOk, Config.tc, curCycles, phaseCycles, inHi, curIn, kindIn,
    primIn, curAllowed, linesOf, Lines.allow, linesSafe]

/-- One witness for each clause: not sampling; a 4-bit build with another low half; a TIMED build. -/
theorem witness_DisplayIgnoredOutsideSampling :
    sampling (ready .eight .polled) = false ∧
    (StateOk samplingState ∧ samplingState.cfg.width = .four ∧ hiNibble 0x83 = hiNibble samplingState.inp.lcdDbI ∧
      sampling samplingState = true) ∧
    (StateOk pulsingState ∧ pulsingState.cfg.busy = .timed) :=
  ⟨by decide, ⟨samplingState_ok, by decide⟩, pulsingState_ok, rfl⟩
theorem witness_OnlyNonConformingBuildsStop :
    { State.reset with cfg := { Config.tc .eight .timed with nPower := 17 } }.cfg.conforming = false ∧
    { State.reset with cfg := { Config.tc .eight .timed with nPower := 16 } }.cfg.conforming = true := by decide
theorem witness_InitAccepted : State.reset.inited = false ∧ 1 ≤ State.reset.cfg.nPower := by decide
/-- The hypothesis of CmdAccepted, DataAccepted, ClearAccepted and HomeAccepted. -/
theorem witness_CmdDataClearHomeAccepted : (ready .eight .timed).inited = true := by decide
theorem witness_GotoAccepted : (ready .eight .timed).cfg.geometryOk = true ∧ (ready .eight .timed).inited = true ∧
    (1 : BitVec 2).toNat < (ready .eight .timed).cfg.lines := by decide
/-- One witness for each case of R201. -/
theorem witness_PutcAccepted :
    let s := ready .eight .timed
    s.cfg.geometryOk = true ∧ s.inited = true ∧ 0x0C = s.cfg.chFf ∧ ((0x0A : Byte) ≠ s.cfg.chFf ∧ 0x0A = s.cfg.chNl) ∧
      ((0x0B : Byte) ≠ s.cfg.chFf ∧ (0x0B : Byte) ≠ s.cfg.chNl) := by decide
/-- One witness for each clause; LINES itself is the first line that does not exist. -/
theorem witness_IllegalInState :
    (ready .eight .timed).inited = true ∧ (State.reset.inited = false ∧ Instr.home ≠ .init) ∧
      (ready .eight .timed).cfg.lines ≤ (2 : BitVec 2).toNat := by decide

/-- A legal request other than INIT, in a TIMED build: GOTO 5, 1 in T4 (V8.1). -/
theorem witness_TimedRequestRuns :
    let s := offered 0x5405 (sentCycles (Config.tc .four .timed) 1 false) (ready .four .timed)
    let p : Sent := { val := 0xC5, rsel := false, settle := false, line := 1 }
    StateOk s ∧ s.cfg.conforming = true ∧ s.cfg.busy = .timed ∧ s.inited = true ∧ s.seq = .idle ∧ s.inp.reqValid = true
      ∧ decode s.inp.reqWord = .ok (.goto 5 1) ∧ sentBy s (.goto 5 1) = some p
      ∧ steady s (sentCycles s.cfg 1 p.settle + 1) :=
  ⟨ok_offered (ready_ok _ _) _ _, by decide, rfl, rfl, rfl, rfl, by decide, by decide, steady_offered _ _ _⟩

/-- The clear form, which settles, in B4 with one sample. -/
theorem witness_PolledRequestRuns :
    let s := offered 0x600C (sentCycles (Config.tc .four .polled) 1 true) (ready .four .polled)
    let p : Sent := { val := 0x01, rsel := false, settle := true, line := 0 }
    StateOk s ∧ s.cfg.conforming = true ∧ s.cfg.busy = .polled ∧ s.inited = true ∧ s.seq = .idle ∧ s.inp.reqValid = true
      ∧ decode s.inp.reqWord = .ok (.putc 0x0C) ∧ sentBy s (.putc 0x0C) = some p
      ∧ steady s (sentCycles s.cfg (0 + 1) p.settle + 1) ∧ pollAnswered s 4 0 :=
  ⟨ok_offered (ready_ok _ _) _ _, by decide, rfl, rfl, rfl, rfl, by decide, by decide, steady_offered _ _ _,
    answered_offered _ _ _ _ rfl rfl (by decide) (by decide)⟩

/-- The reset state of a build is well formed. -/
theorem resetOf_ok (c : Config) : StateOk (State.resetOf c) := by
  constructor <;> simp [State.resetOf, seqOk, loNibble]

theorem witness_TimedInitRuns :
    let s := offered 0x0000 (initCycles (Config.tc .eight .timed) 1 1 1 1) State.reset
    StateOk s ∧ s.cfg.conforming = true ∧ s.cfg.busy = .timed ∧ s.inited = false ∧ s.seq = .idle ∧ s.inp.reqValid = true
      ∧ s.inp.reqWord = 0x0000 ∧ steady s (initCycles s.cfg 1 1 1 1 + 1) :=
  ⟨ok_offered (resetOf_ok _) _ _, by decide, rfl, rfl, rfl, rfl, rfl, steady_offered _ _ _⟩

theorem witness_PolledInitRuns :
    let c := Config.tc .four .polled
    let s := offered 0x0000 (initCycles c 1 1 1 1) (State.resetOf c)
    let b : Nat → Nat := fun _ => 0
    StateOk s ∧ s.cfg.conforming = true ∧ s.cfg.busy = .polled ∧ s.inited = false ∧ s.seq = .idle ∧ s.inp.reqValid = true
      ∧ s.inp.reqWord = 0x0000 ∧ steady s (initCycles s.cfg (b 0 + 1) (b 1 + 1) (b 2 + 1) (b 3 + 1) + 1)
      ∧ ∀ j, j < 4 → pollAnswered s (tailStart s.cfg b j + 4) (b j) := by
  refine ⟨ok_offered (resetOf_ok _) _ _, by decide, rfl, rfl, rfl, rfl, rfl, steady_offered _ _ _, fun j hj => ?_⟩
  have : j = 0 ∨ j = 1 ∨ j = 2 ∨ j = 3 := by omega
  rcases this with rfl | rfl | rfl | rfl <;> exact answered_offered _ _ _ _ rfl rfl (by decide) (by decide)

/-! Extra cycles, in a build that stretches (R101). -/

/-- The last high cycle of a write pulse, made an extra one. -/
def stretchedState : State :=
  { pulsingState with cfg := { tcT8 with stretches := true }, inp := { quiet with extra := true }, tape := [quiet] }

/-- R101: in an extra cycle the outputs hold, and the pulse goes on; in the reference timing it would have ended. -/
theorem test_extra_cycle :
    nextSat (step stretchedState) (fun t => t.eQ && t.dly == 0 && t.seq == stretchedState.seq && t.dbQ == 0x41) = true ∧
    nextSat (step (reference stretchedState)) (fun t => !t.eQ) = true := by decide
/-- R75, R223: an extra cycle delays no acceptance and no reset. -/
theorem test_no_extra_cycle :
    let s := { ready .eight .timed with
      cfg := { tcT8 with stretches := true }, inp := { quiet with extra := true, reqValid := true, reqWord := 0x2041 } }
    nextSat (step s) (fun t => t.valQ == 0x41 && !isIdle t) = true ∧
    nextSat (step { stretchedState with inp := { quiet with extra := true, rst := true } }) isIdle = true := by decide
theorem witness_ExtraCycleHolds :
    stretchedState.cfg.conforming = true ∧ stretchedState.inp.rst = false ∧
    stretchedState.seq = .run (.pulse .write .hi) [.wait .byte] ∧ stretchedState.cfg.stretches = true ∧
    stretchedState.inp.extra = true := by decide
/-- A cycle of a build that stretches which is no extra one. -/
theorem witness_OtherCyclesAreReference :
    let s := { stretchedState with inp := quiet }
    extraCycle s = false ∧ s.cfg.stretches = true ∧ nextSat (step s) (fun t => !t.eQ) = true := by decide
/-- An extra cycle and the cycle after it, in which the pulse's event comes. -/
theorem witness_StretchedRunsHaveReferenceEvents :
    (trace 2 stretchedState).map Prod.fst = some [(2, .write true (.byte 0x41))] := by decide

/-- V5.6: every answer is 0x80. -/
theorem witness_BusyPollNeverEnds :
    let busy : Inputs := { quiet with lcdDbI := 0x80 }
    let s := { ready .eight .polled with rwQ := true, oeQ := false, inp := busy, tape := List.replicate 20 busy }
    s.cfg.conforming = true ∧ s.eQ = false ∧ s.rsQ = false ∧ s.rwQ = true ∧ s.oeQ = false ∧ steady s 4 ∧
      ∀ j, j < 4 → busyFlag s.cfg (sampledStatus s 0 j) = true := by
  unfold steady; decide
/-- The first 17 cycles of V6.1, with its first event. -/
theorem witness_FunctionSetsComeFirst :
    let c := Config.tc .eight .timed
    let s := { State.resetOf c with
      inp := { quiet with reqValid := true }, tape := List.replicate 17 quiet }
    noReset s 17 ∧ (trace 17 s).map Prod.fst = some [(16, .write false (.byte 0x30))] := by
  unfold noReset; decide
theorem witness_ResetLoadsResetValues :
    { pulsingState with inp := { quiet with rst := true } }.cfg.conforming = true ∧
    { pulsingState with inp := { quiet with rst := true } }.inp.rst = true := by decide

/-- Steps that exist, from well-formed states of each kind. -/
theorem witness_StepKeepsStateOk : StateOk pulsingState ∧ nextSat (step pulsingState) (fun _ => true) = true :=
  ⟨pulsingState_ok, by decide⟩
theorem witness_BuildNeverChanges : nextSat (step pulsingState) (fun t => t.cfg == pulsingState.cfg) = true := by decide
/-- One witness for each clause: into the high phase, and out of it. -/
theorem witness_LinesHoldAroundPulse :
    (StateOk pulsingState ∧ pulsingState.inp.rst = false ∧ pulsingState.eQ = true ∧
      nextSat (step pulsingState) (fun t => t.seq == .run (.pulse .write .eh) [.wait .byte]) = true) ∧
    nextSat (step (running .eight .timed [.pulse])) (fun t => t.eQ && t.seq == .run (.pulse .write .hi) []) = true :=
  ⟨⟨pulsingState_ok, by decide⟩, by decide⟩

theorem running_line_ok (op : LineOp) (h : op = .put8 (.const 0x41)) : StateOk (running .eight .timed [.line op]) := by
  subst h
  constructor <;> simp [running, load, applyLine, ready, State.resetOf, seqOk, Config.tc, curCycles, inHi, curIn, lineOpIn,
    curAllowed, linesOf, linesSafe]

/-- One witness for each case: into IDLE, a wait, a pulse, and a one-cycle primitive. -/
theorem witness_OutputsHold :
    (StateOk (running .eight .timed [.line (.put8 (.const 0x41))]) ∧
      nextSat (step (running .eight .timed [.line (.put8 (.const 0x41))])) (fun t => t.seq == .idle) = true) ∧
    nextSat (step (running .eight .timed [.wait .byte])) (fun t => t.seq == .run (.wait .byte) []) = true ∧
    (StateOk pulsingState ∧ nextSat (step pulsingState) (fun t => t.seq == .run (.pulse .write .eh) [.wait .byte]) = true) ∧
    nextSat (step (running .eight .timed [.line (.setRs (.const true)), .line (.put8 .val)])) (fun t =>
      t.seq == .run (.line (.put8 .val)) []) = true :=
  ⟨⟨running_line_ok _ rfl, by decide⟩, by decide, ⟨pulsingState_ok, by decide⟩, by decide⟩
theorem witness_LineIndexWriters :
    nextSat (step (offered 0x600A 1 (ready .eight .timed))) (fun t => t.lineIdx != (ready .eight .timed).lineIdx) = true := by
  decide
/-- One witness for each clause. -/
theorem witness_StatusUntilReset :
    (pulsingState.inited = true ∧ nextSat (step pulsingState) (fun t => t.inited) = true) ∧
    nextSat (step (offered 0x0000 1 { ready .eight .timed with errQ := true, causeQ := 5 })) (fun t => t.causeQ == 5) = true ∧
    nextSat (step (offered 0x0000 1 State.reset)) (fun t => t.inited) = true ∧
    nextSat (step (offered 0x7000 1 State.reset)) (fun t => t.errQ) = true := by decide
/-- `samplingState` with a reset in its cycle. -/
def resetSampling : State := { samplingState with inp := { quiet with rst := true, lcdDbI := 0x8F } }

theorem resetSampling_ok : StateOk resetSampling :=
  ⟨samplingState_ok.seq, samplingState_ok.timedLines, samplingState_ok.lowLines, samplingState_ok.cause,
    samplingState_ok.timedStat⟩

/-- One high cycle before it, with a reset in that cycle. -/
def resetBeforeSampling : State := { resetSampling with dly := 1 }

theorem resetBeforeSampling_ok : StateOk resetBeforeSampling := by
  constructor <;> simp [resetBeforeSampling, resetSampling, samplingState, ready, State.resetOf, seqOk, Config.tc, loNibble,
    curCycles, phaseCycles, inHi, curIn, kindIn, primIn, lineOpIn, curAllowed, linesOf, Lines.allow, linesSafe, Lines.after]

/-- R69, R112: a reset in the sampling cycle leaves the read event its sample, an earlier one leaves it none. -/
theorem test_reset_in_read_pulse :
    nextSat (step resetSampling) (fun t => !t.eQ && busEvent resetSampling t == some (.read false 0x8F)) = true ∧
    nextSat (step resetBeforeSampling) (fun t => !t.eQ && busEvent resetBeforeSampling t == some (.readCut false)) = true := by
  decide

/-- The hypotheses of ResetCutsPulse: a read pulse in each of its two high cycles, and a write pulse. -/
theorem witness_ResetCutsPulse :
    (StateOk resetSampling ∧ resetSampling.cfg.conforming = true ∧ resetSampling.inp.rst = true ∧
      resetSampling.seq = .run (.pulse .poll4Hi .hi) [.line (.setDir .output), .line (.setRw false)]) ∧
    (StateOk resetBeforeSampling ∧ resetBeforeSampling.cfg.conforming = true ∧ resetBeforeSampling.inp.rst = true ∧
      resetBeforeSampling.seq = .run (.pulse .poll4Hi .hi) [.line (.setDir .output), .line (.setRw false)]) ∧
    (let s := { pulsingState with inp := { quiet with rst := true } }
     StateOk s ∧ s.cfg.conforming = true ∧ s.inp.rst = true ∧ s.seq = .run (.pulse .write .hi) [.wait .byte]) :=
  ⟨⟨resetSampling_ok, by decide⟩, ⟨resetBeforeSampling_ok, by decide⟩,
    ⟨pulsingState_ok.seq, pulsingState_ok.timedLines, pulsingState_ok.lowLines, pulsingState_ok.cause,
      pulsingState_ok.timedStat⟩, by decide⟩

/-- A write event, a read event, and one without a sample. -/
theorem witness_EventsHaveTheirDirection :
    (StateOk pulsingState ∧
      nextSat (step pulsingState) (fun t => busEvent pulsingState t == some (.write true (.byte 0x41))) = true) ∧
    (StateOk samplingState ∧
      nextSat (step samplingState) (fun t => busEvent samplingState t == some (.read false 0x8F)) = true) ∧
    (StateOk resetBeforeSampling ∧
      nextSat (step resetBeforeSampling) (fun t => busEvent resetBeforeSampling t == some (.readCut false)) = true) :=
  ⟨⟨pulsingState_ok, by decide⟩, ⟨samplingState_ok, by decide⟩, resetBeforeSampling_ok, by decide⟩
theorem witness_LinePrimitiveTakesOneCycle : tcT8.conforming = true ∧ steady (ready .eight .timed) 1 := by
  unfold steady; decide
/-- The first cycle and the last cycle of a pulse at TC. -/
theorem witness_PulseWaveform :
    let s := offered 0 3 (ready .eight .timed)
    s.cfg.conforming = true ∧ s.eQ = false ∧ steady s 0 ∧ steady s 3 ∧ 0 < pulseCycles s.cfg ∧ 3 < pulseCycles s.cfg := by
  unfold steady; decide
/-- A wait of one cycle or more, and a wait of none. -/
theorem witness_WaitCountsDown :
    (let s := offered 0 5 (ready .eight .timed)
     s.cfg.conforming = true ∧ s.eQ = false ∧ delayCycles s.cfg .byte = 5 ∧ steady s (delayCycles s.cfg .byte)) ∧
    (let s := { ready .eight .timed with cfg := { Config.tc .eight .timed with nTrail := 0 } }
     s.cfg.conforming = true ∧ s.eQ = false ∧ delayCycles s.cfg .trail = 0 ∧ steady s (delayCycles s.cfg .trail)) := by
  unfold steady; decide
/-- In the reference timing one cycle is steady if it has no reset. -/
theorem steady_reference_one {s : State} (hr : s.inp.rst = false) (h : s.cfg.stretches = false) : steady s 1 := by
  intro j hj
  obtain rfl : j = 0 := by omega
  exact ⟨hr, fun h' => by rw [h] at h'; cases h'⟩

/-- Both widths, each with the busy flag 1 and 0. -/
theorem witness_PollTestDecides :
    let s := fun (w : BusWidth) (k : PulseKind) (stat : Byte) =>
      { ready w .polled with seq := .run (.pulse k .eh) [], dly := 0, statQ := stat, rwQ := true, oeQ := false }
    ∀ stat : Byte,
      ((s .eight .poll8 stat).cfg.conforming = true ∧ steady (s .eight .poll8 stat) 1 ∧
        (s .eight .poll8 stat).seq = .run (.pulse .poll8 .eh) [] ∧ (s .eight .poll8 stat).dly = 0) ∧
      ((s .four .poll4Lo stat).cfg.conforming = true ∧ steady (s .four .poll4Lo stat) 1 ∧
        (s .four .poll4Lo stat).seq = .run (.pulse .poll4Lo .eh) [] ∧ (s .four .poll4Lo stat).dly = 0) :=
  fun _ => ⟨⟨tc_conforming _ _, steady_reference_one rfl rfl, rfl, rfl⟩, ⟨tc_conforming _ _, steady_reference_one rfl rfl, rfl, rfl⟩⟩
/-- Not sampling; and each part of a sample. -/
theorem witness_StatusTakesTheSample :
    (sampling (ready .eight .polled) = false ∧ nextSat (step (ready .eight .polled)) (fun _ => true) = true) ∧
    (samplingState.inp.rst = false ∧ samplingState.dly = 0 ∧ extraCycle samplingState = false ∧ samplePart .poll4Hi = some .hi ∧
      nextSat (step samplingState) (fun t => t.statQ == 0x80) = true) ∧
    samplePart .poll8 = some .full ∧ samplePart .poll4Lo = some .lo := by decide
theorem witness_CycleCountIsLeastBound : (0 : Rat) ≤ 1 / 2 ∧ (0 : Rat) < 3 := by norm_num
theorem witness_SetDdramCommand : tcT8.geometryOk = true ∧ tcT8.cmds.cmdSetDdram = 0x80 := by decide
theorem witness_NewlineRoundTrip :
    let s := ready .eight .timed
    s.inited = true ∧ s.cfg.specValues ∧
      nextSat (exec (.putc 0x0A) s) (fun t => t.inited && t.cfg == s.cfg) = true := by
  unfold Config.specValues; decide
theorem witness_RunFaultIsSticky :
    let s := { ready .eight .timed with errQ := true, causeQ := 3 }
    s.inp.rst = false ∧ nextSat (step s) (fun _ => true) = true ∧ runFault s = some (.illegalRequest 3) := by decide

end Sys2Proof.Tests
end

section
/-! The build through the operations of an edge: what `Laws/State.lean` says of `load`, `startPulse` and the other updates,
carried up to the end of a pulse, a cycle of RUN, an acceptance and the edge. -/
namespace Sys2Proof.Machine

@[simp] theorem pollTest_cfg (again : PulseKind) (rest : List Prim) (s : State) : (pollTest again rest s).cfg = s.cfg := by
  unfold pollTest
  split
  · exact startPulse_cfg again rest s
  · exact load_cfg rest s

@[simp] theorem endPulse_cfg (kind : PulseKind) (rest : List Prim) (s : State) : (endPulse kind rest s).cfg = s.cfg := by
  cases kind <;> simp [endPulse]

@[simp] theorem finish_cfg (cur : Cur) (rest : List Prim) (s : State) : (finish cur rest s).cfg = s.cfg := by
  cases cur with
  | line op => exact load_cfg rest s
  | wait k => exact load_cfg rest s
  | pulse kind ph => cases ph <;> simp [finish]

@[simp] theorem advance_cfg (cur : Cur) (rest : List Prim) (s : State) : (advance cur rest s).cfg = s.cfg := by
  unfold advance
  split
  · exact finish_cfg cur rest s
  · rfl

@[simp] theorem accept_cfg (val : Byte) (rsel : Bool) (expansion : List Prim) (s : State) :
    (accept val rsel expansion s).cfg = s.cfg :=
  load_cfg expansion _

theorem exec_keeps_cfg {i : Instr} {s t : State} (h : exec i s = .next t) : t.cfg = s.cfg := by
  obtain ⟨c, hi⟩ | ⟨val, rsel, expansion, l, n, ha, -⟩ := exec_cases i s
  · cases hi.symm.trans h
    exact illegalRequest_cfg c s
  · cases ha.symm.trans h
    exact accept_cfg val rsel expansion _

theorem acceptRequest_keeps_cfg {s t : State} (h : acceptRequest s = .next t) : t.cfg = s.cfg := by
  unfold acceptRequest at h
  split at h
  · exact exec_keeps_cfg h
  · cases h
    exact illegalRequest_cfg _ s

theorem edge_keeps_cfg {s t : State} (h : edge s = .next t) : t.cfg = s.cfg := by
  obtain ⟨-, rfl⟩ | ⟨-, rfl⟩ | ⟨-, -, cur, rest, -, rfl⟩ | ⟨-, -, -, ha⟩ | ⟨-, -, -, rfl⟩ := edge_cases h
  · exact resetEdge_cfg s
  · rfl
  · exact advance_cfg cur rest s
  · exact acceptRequest_keeps_cfg ha
  · rfl

/-- Settles O34: every step is an edge, which keeps the build in each of its five cases, and then the next cycle's input
levels, which are no part of it. -/
theorem buildNeverChanges : Obligations.BuildNeverChanges := by
  intro s t h
  obtain ⟨-, u, hu, rfl⟩ := step_cases h
  exact (nextInputs_cfg u).trans (edge_keeps_cfg hu)

end Sys2Proof.Machine
end

section
/-! The cycle counts of R12, and the builds that times and a clock frequency make (R10). -/
namespace Sys2Proof.Machine

/-- The bound that characterises a cycle count (R12): it is the least natural number not below the product. -/
theorem cycleCount_le_iff {t f : Rat} {n : Nat} : cycleCount t f ≤ n ↔ t * f ≤ n :=
  Nat.ceil_le

theorem configOfTiming_eq_some_iff {t : Timing} {c d : Config} :
    configOfTiming t c = some d ↔ t.wellFormed = true ∧ withCounts t c = d := by
  simp [configOfTiming]

theorem configOfTiming_eq_none_iff {t : Timing} {c : Config} :
    configOfTiming t c = none ↔ t.wellFormed = false := by
  simp [configOfTiming]

/-- How times and a frequency can fail R10: the frequency is not above 0, or a time is negative. -/
theorem timing_wellFormed_eq_false_iff {t : Timing} :
    t.wellFormed = false ↔ t.fClk ≤ 0 ∨
      ∃ x ∈ [t.tPower, t.tR1, t.tR2, t.tR3, t.tTrail, t.tSwitch, t.tByte, t.tClear, t.tEpw, t.tSu, t.tEh], x < 0 := by
  simp only [Timing.wellFormed, Bool.and_eq_false_iff, List.all_eq_false, decide_eq_false_iff_not, decide_eq_true_eq,
    not_lt, not_le]

/-- Settles O47: the cycle count is not below the product because it is not below itself. -/
theorem cycleCountIsLeastBound : Obligations.CycleCountIsLeastBound := by
  intro t f _ _
  exact ⟨cycleCount_le_iff.mp le_rfl, fun n hn => cycleCount_le_iff.mpr hn⟩

/-- Settles O53: no build comes of times or a frequency that R10 does not allow; a build that does come is `withCounts`,
whose eleven counts are each a cycle count of R12. -/
theorem buildOfTiming : Obligations.BuildOfTiming := by
  intro t c
  refine ⟨configOfTiming_eq_none_iff.trans timing_wellFormed_eq_false_iff, fun d hd => ?_⟩
  obtain ⟨-, rfl⟩ := configOfTiming_eq_some_iff.mp hd
  refine ⟨fun n => ?_, rfl⟩
  simp only [withCounts, cycleCount_le_iff, and_self]

end Sys2Proof.Machine
end

section
/-! The request on the port: which words are legal (60_exceptions.md R220), and what the acceptance edge makes of them. -/
namespace Sys2Proof.Machine

/-- The cause a decoded word is refused with, if it is: the decoder's own (R73, R74), or that of checks 3 and 4 of R220,
which the meanings make. -/
def rejection (c : Config) (inited : Bool) : Except DecodeError Instr → Option Cause
  | .error e => some (causeOfDecode e)
  | .ok .init => if inited then some .reInit else none
  | .ok (.goto _ y) => if inited then if c.lines ≤ y.toNat then some .lineRange else none else some .noInit
  | .ok _ => if inited then none else some .noInit

/-- A nonzero must-be-zero field comes before the checks of the meaning (R220). -/
theorem rejection_ifZero (c : Config) (inited zero : Bool) (i : Instr) :
    rejection c inited (ifZero zero i) = if zero then rejection c inited (.ok i) else some .field := by
  cases zero <;> rfl

/-- The machine's way of checking a word, decoder first and meaning after it, is the list of R220. -/
theorem check_eq_rejection (c : Config) (w : ReqWord) (inited : Bool) :
    check c w inited = rejection c inited (decode w) := by
  unfold check decode
  dsimp only
  generalize (fieldOp w).toNat = op
  by_cases hop : 7 ≤ op
  · obtain ⟨n, rfl⟩ := Nat.exists_eq_add_of_le' hop
    simp [rejection, causeOfDecode]
  · have hlt : op < 7 := by omega
    clear hop
    interval_cases op
    all_goals
      simp only [rejection_ifZero]
      grind [rejection]

/-- The lists of primitives an acceptance loads (R160, R180, R184, R202). -/
def expansions (c : Config) : List (List Prim) :=
  [initSequence c, writeByte c .val .rsel, writeAndSettle c .val .rsel]

/-- The requests that may change the line index (10_state.md R29). -/
def WritesLineIdx (c : Config) (i : Instr) : Prop :=
  i = .init ∨ i = .clear ∨ i = .home ∨ i = .putc c.chFf ∨ i = .putc c.chNl

/-- `t` is the state after the acceptance edge of the legal request `i` in `s` (R76). -/
structure Accepted (i : Instr) (s t : State) : Prop where
  loads : ∃ val rsel expansion l, expansion ∈ expansions s.cfg ∧ (l = s.lineIdx ∨ WritesLineIdx s.cfg i) ∧
    t = accept val rsel expansion { s with lineIdx := l, inited := true }
  initFirst : s.inited = true ∨ i = .init

/-- A refused request takes the illegal-request action: INIT after INIT, any other before it, and a GOTO to a line that
does not exist (R220). -/
theorem exec_of_rejection {i : Instr} {s : State} {c : Cause} (h : rejection s.cfg s.inited (.ok i) = some c) :
    exec i s = .next (illegalRequest c s) := by
  cases i with
  | init => cases hi : s.inited <;> simp_all [rejection, exec, execInit]
  | goto x y => cases hi : s.inited <;> simp_all [rejection, exec, execGoto, whenInited]
  | _ => cases hi : s.inited <;> simp_all [rejection, exec, execCmd, execData, execClear, execHome, execPutc, whenInited]

/-- An acceptance after INIT writes no register but the line index before it latches and loads. -/
theorem accepted_of_inited {i : Instr} {s : State} {val : Byte} {rsel : Bool} {expansion : List Prim} {l : BitVec 1}
    (hi : s.inited = true) (he : expansion ∈ expansions s.cfg) (hl : l = s.lineIdx ∨ WritesLineIdx s.cfg i) :
    Accepted i s (accept val rsel expansion { s with lineIdx := l }) :=
  ⟨⟨val, rsel, expansion, l, he, hl, by rw [← hi]⟩, .inl hi⟩

theorem writeByte_mem_expansions (c : Config) : writeByte c .val .rsel ∈ expansions c := by simp [expansions]

theorem writeAndSettle_mem_expansions (c : Config) : writeAndSettle c .val .rsel ∈ expansions c := by simp [expansions]

theorem accepted_acceptByte (i : Instr) {s : State} (val : Byte) (rsel : Bool) (hi : s.inited = true) :
    Accepted i s (acceptByte val rsel s) :=
  accepted_of_inited hi (writeByte_mem_expansions s.cfg) (.inl rfl)

theorem accepted_acceptSettle {i : Instr} {s : State} (command : Byte) (hi : s.inited = true)
    (hw : WritesLineIdx s.cfg i) : Accepted i s (acceptSettle command s) :=
  accepted_of_inited hi (writeAndSettle_mem_expansions s.cfg) (.inr hw)

theorem accepted_acceptNewline {i : Instr} {s : State} (hi : s.inited = true) (hw : WritesLineIdx s.cfg i) :
    Accepted i s (acceptNewline s) :=
  accepted_of_inited hi (writeByte_mem_expansions s.cfg) (.inr hw)

/-- After INIT a meaning is its effect, whatever its check before INIT would have been. -/
theorem whenInited_of_inited {s : State} (hi : s.inited = true) (effect : State) : whenInited s effect = effect := by
  simp [whenInited, hi]

/-- INIT is legal only before it has been accepted, every other request only after it (R220). -/
theorem inited_iff_of_legal {i : Instr} {c : Config} {inited : Bool} (h : rejection c inited (.ok i) = none) :
    inited = true ↔ i ≠ .init := by
  cases inited <;> cases i <;> simp_all [rejection]

/-- A legal request is accepted, with one of the three expansions (R76). -/
theorem exec_of_legal {i : Instr} {s : State} (h : rejection s.cfg s.inited (.ok i) = none) :
    ∃ t, exec i s = .next t ∧ Accepted i s t := by
  by_cases hn : i = .init
  · subst hn
    have hi : s.inited = false := by simpa using (inited_iff_of_legal h).not
    refine ⟨_, by simp only [exec, execInit, hi]; rfl, ⟨_, _, _, 0, .head _, .inr (.inl rfl), rfl⟩, .inr rfl⟩
  · have hi : s.inited = true := (inited_iff_of_legal h).mpr hn
    have hw : ∀ effect, whenInited s effect = effect := whenInited_of_inited hi
    cases i with
    | init => contradiction
    | cmd b => exact ⟨_, by rw [exec, execCmd, hw], accepted_acceptByte _ b false hi⟩
    | data b => exact ⟨_, by rw [exec, execData, hw], accepted_acceptByte _ b true hi⟩
    | clear => exact ⟨_, by rw [exec, execClear, hw], accepted_acceptSettle _ hi (by simp [WritesLineIdx])⟩
    | home => exact ⟨_, by rw [exec, execHome, hw], accepted_acceptSettle _ hi (by simp [WritesLineIdx])⟩
    | goto x y =>
      have hy : ¬ s.cfg.lines ≤ y.toNat := by
        intro hle
        simp [rejection, hi, hle] at h
      exact ⟨_, by rw [exec, execGoto, hw, if_neg hy],
        accepted_of_inited hi (writeByte_mem_expansions s.cfg) (.inl rfl)⟩
    | putc c =>
      by_cases hff : c = s.cfg.chFf
      · exact ⟨_, by rw [exec, execPutc, hw, if_pos hff], accepted_acceptSettle _ hi (by simp [WritesLineIdx, hff])⟩
      by_cases hnl : c = s.cfg.chNl
      · exact ⟨_, by rw [exec, execPutc, hw, if_neg hff, if_pos hnl],
          accepted_acceptNewline hi (by simp [WritesLineIdx, hnl])⟩
      · exact ⟨_, by rw [exec, execPutc, hw, if_neg hff, if_neg hnl], accepted_acceptByte _ c true hi⟩

/-- What the acceptance edge can do: the illegal-request action with the cause of the first check that fails, or the
acceptance of the decoded request, which passes every check (R76, R220, R222). -/
theorem acceptRequest_cases {s t : State} (h : acceptRequest s = .next t) :
    (∃ c, check s.cfg s.inp.reqWord s.inited = some c ∧ t = illegalRequest c s) ∨
    (∃ i, check s.cfg s.inp.reqWord s.inited = none ∧ decode s.inp.reqWord = .ok i ∧ Accepted i s t) := by
  rw [check_eq_rejection]
  unfold acceptRequest at h
  split at h
  · rename_i i hd
    rw [hd]
    cases hr : rejection s.cfg s.inited (.ok i) with
    | some c =>
      cases (exec_of_rejection hr).symm.trans h
      exact .inl ⟨c, rfl, rfl⟩
    | none =>
      obtain ⟨u, hu, ha⟩ := exec_of_legal hr
      cases hu.symm.trans h
      exact .inr ⟨i, rfl, rfl, ha⟩
  · rename_i e hd
    cases h
    exact .inl ⟨_, by rw [hd]; rfl, rfl⟩

/-! ## The registers only an acceptance writes -/

/-- `t` has the flags, the line index and the latched request of `s` (10_state.md R29 to R32). -/
structure SameStatus (s t : State) : Prop where
  lineIdx : t.lineIdx = s.lineIdx
  inited : t.inited = s.inited
  errQ : t.errQ = s.errQ
  causeQ : t.causeQ = s.causeQ
  valQ : t.valQ = s.valQ
  rselQ : t.rselQ = s.rselQ

theorem load_sameStatus (l : List Prim) (s : State) : SameStatus s (load l s) := by
  constructor <;> simp

theorem startPulse_sameStatus (kind : PulseKind) (rest : List Prim) (s : State) :
    SameStatus s (startPulse kind rest s) := by
  constructor <;> simp

theorem pollTest_sameStatus (again : PulseKind) (rest : List Prim) (s : State) :
    SameStatus s (pollTest again rest s) := by
  unfold pollTest
  split
  · exact startPulse_sameStatus again rest s
  · exact load_sameStatus rest s

theorem endPulse_sameStatus (kind : PulseKind) (rest : List Prim) (s : State) : SameStatus s (endPulse kind rest s) := by
  cases kind with
  | write => exact load_sameStatus rest s
  | read part => exact load_sameStatus rest s
  | poll8 => exact pollTest_sameStatus _ rest s
  | poll4Hi => exact startPulse_sameStatus _ rest s
  | poll4Lo => exact pollTest_sameStatus _ rest s

theorem finish_sameStatus (cur : Cur) (rest : List Prim) (s : State) : SameStatus s (finish cur rest s) := by
  cases cur with
  | line op => exact load_sameStatus rest s
  | wait k => exact load_sameStatus rest s
  | pulse kind ph =>
    cases ph with
    | su => constructor <;> rfl
    | hi => constructor <;> simp [finish]
    | eh => exact endPulse_sameStatus kind rest s

/-- A cycle of RUN writes none of them. -/
theorem advance_sameStatus (cur : Cur) (rest : List Prim) (s : State) : SameStatus s (advance cur rest s) := by
  unfold advance
  split
  · exact finish_sameStatus cur rest s
  · constructor <;> rfl

theorem accepted_inited {i : Instr} {s t : State} (h : Accepted i s t) : t.inited = true := by
  obtain ⟨val, rsel, e, l, -, -, rfl⟩ := h.loads
  simp [accept]

theorem accepted_errQ {i : Instr} {s t : State} (h : Accepted i s t) : t.errQ = s.errQ := by
  obtain ⟨val, rsel, e, l, -, -, rfl⟩ := h.loads
  simp [accept]

theorem accepted_causeQ {i : Instr} {s t : State} (h : Accepted i s t) : t.causeQ = s.causeQ := by
  obtain ⟨val, rsel, e, l, -, -, rfl⟩ := h.loads
  simp [accept]

theorem accepted_lineIdx {i : Instr} {s t : State} (h : Accepted i s t) :
    t.lineIdx = s.lineIdx ∨ WritesLineIdx s.cfg i := by
  obtain ⟨val, rsel, e, l, -, hl, rfl⟩ := h.loads
  simpa [accept] using hl

/-- What an edge without a reset can do to them: hold them all, or one of the two outcomes of an acceptance edge. -/
theorem edge_status_cases {s t : State} (hr : s.inp.rst = false) (h : edge s = .next t) :
    SameStatus s t ∨
    (s.seq = .idle ∧ s.inp.reqValid = true ∧
      ((∃ c, check s.cfg s.inp.reqWord s.inited = some c ∧ t = illegalRequest c s) ∨
        ∃ i, decode s.inp.reqWord = .ok i ∧ Accepted i s t)) := by
  obtain ⟨hrst, -⟩ | ⟨-, rfl⟩ | ⟨-, -, cur, rest, -, rfl⟩ | ⟨-, hs, hv, ha⟩ | ⟨-, -, -, rfl⟩ := edge_cases h
  · exact absurd hrst (by simp [hr])
  · exact .inl ⟨rfl, rfl, rfl, rfl, rfl, rfl⟩
  · exact .inl (advance_sameStatus cur rest s)
  · obtain hc | ⟨i, -, hd, hacc⟩ := acceptRequest_cases ha
    · exact .inr ⟨hs, hv, .inl hc⟩
    · exact .inr ⟨hs, hv, .inr ⟨i, hd, hacc⟩⟩
  · exact .inl ⟨rfl, rfl, rfl, rfl, rfl, rfl⟩

/-- Settles O37: of what an edge can do, only an acceptance writes the line index, and then the request is one of these. -/
theorem lineIndexWriters : Obligations.LineIndexWriters := by
  intro s t hr h hne
  obtain ⟨-, u, hu, rfl⟩ := step_cases h
  rw [nextInputs_lineIdx] at hne
  obtain hk | ⟨hs, hv, ⟨c, -, rfl⟩ | ⟨i, hd, ha⟩⟩ := edge_status_cases hr hu
  · exact absurd hk.lineIdx hne
  · exact absurd (illegalRequest_lineIdx c s) hne
  · exact ⟨hs, hv, i, hd, (accepted_lineIdx ha).resolve_left hne⟩

/-- Settles O38, by the three things an edge can do to the status: hold it, record the first cause of a refused word, or
accept a request, which sets `inited` and leaves the error status alone. -/
theorem statusUntilReset : Obligations.StatusUntilReset := by
  intro s t hr h
  obtain ⟨-, u, hu, rfl⟩ := step_cases h
  simp only [nextInputs_inited, nextInputs_errQ, nextInputs_causeQ]
  obtain hk | ⟨hs, hv, ⟨c, hc, rfl⟩ | ⟨i, hd, ha⟩⟩ := edge_status_cases hr hu
  · simp +contextual [hk.inited, hk.errQ, hk.causeQ]
  · simp +contextual [hs, hv, hc]
  · have hinit : s.inited = false → decode s.inp.reqWord = .ok .init := fun hn => by
      rw [hd, ha.initFirst.resolve_left (by simp [hn])]
    simp +contextual [accepted_inited ha, accepted_errQ ha, accepted_causeQ ha, hs, hv, hinit]

end Sys2Proof.Machine
end

section
/-! The invariant `StateOk` through the operations of an edge. The sequencer's part asks something of the primitives that
are left, so the lists a request loads are shown to meet it, and `load` to keep it. -/
namespace Sys2Proof.Safety
open Sys2Proof.Machine

/-! ## The control lines along a list of primitives -/

/-- What is safe with RS unknown is safe whatever RS is. -/
theorem linesSafe_of_rs_unknown {l : List Prim} : ∀ {rw oe : Bool} (v : Bool),
    linesSafe ⟨none, rw, oe⟩ l = true → linesSafe ⟨some v, rw, oe⟩ l = true := by
  induction l with
  | nil => exact fun _ h => h
  | cons p rest ih =>
    intro rw oe v h
    cases p with
    | line op =>
      cases op with
      | setRs b =>
        cases b with
        | const b => exact h
        | rsel => exact h
      | setDir d =>
        cases d with
        | output => exact ih v h
        | input => exact ih v h
      | setRw b => exact ih v h
      | put8 b => exact ih v h
      | putHi b => exact ih v h
      | putLo b => exact ih v h
    | wait k => exact ih v h
    | pulse =>
      simp only [linesSafe, Bool.and_eq_true] at h ⊢
      exact ⟨h.1, ih v h.2⟩
    | _ => simp [linesSafe, Lines.allow] at h

/-- A list that leaves the bus at rest can be followed by any list that is safe from there (R136). -/
theorem linesSafe_append {a b : List Prim} (hb : ∀ rs, linesSafe ⟨rs, false, true⟩ b = true) :
    ∀ {l : Lines}, linesSafe l a = true → linesSafe l (a ++ b) = true := by
  induction a with
  | nil =>
    rintro ⟨rs, rw, oe⟩ h
    simp only [linesSafe, Bool.and_eq_true, Bool.not_eq_true'] at h
    obtain ⟨rfl, rfl⟩ := h
    exact hb rs
  | cons p rest ih =>
    intro l h
    cases p with
    | line op => exact ih (l := l.after op) h
    | wait k => exact ih (l := l) h
    | _ =>
      simp only [List.cons_append, linesSafe, Bool.and_eq_true] at h ⊢
      exact ⟨h.1, ih h.2⟩

/-- A list of the build's primitives that finds every pulse's control lines set when it begins with the bus at rest. -/
structure SafeFromRest (c : Config) (l : List Prim) : Prop where
  build : l.all (primIn c) = true
  lines : ∀ rs, linesSafe ⟨rs, false, true⟩ l = true

theorem SafeFromRest.append {c : Config} {a b : List Prim} (ha : SafeFromRest c a) (hb : SafeFromRest c b) :
    SafeFromRest c (a ++ b) :=
  ⟨by simp only [List.all_append, ha.build, hb.build, Bool.and_self], fun rs => linesSafe_append hb.lines (ha.lines rs)⟩

theorem safeFromRest_wait (c : Config) (k : Delay) : SafeFromRest c [.wait k] := ⟨rfl, fun _ => rfl⟩

/-- RS may be set to anything before a list that is safe from rest. -/
theorem safeFromRest_setRs {c : Config} {l : List Prim} (r : BitSrc) (h : SafeFromRest c l) :
    SafeFromRest c (.line (.setRs r) :: l) := by
  refine ⟨h.build, fun rs => ?_⟩
  cases r with
  | const v => exact h.lines (some v)
  | rsel => exact h.lines none

/-- A poll turns the bus around before its pulses and back after them (R135). -/
theorem safeFromRest_poll {c : Config} {p : Prim} (hb : c.busy = .polled)
    (hp : p = .poll8 ∧ c.width = .eight ∨ p = .poll4 ∧ c.width = .four) :
    SafeFromRest c (pollPrologue ++ [p] ++ pollEpilogue) := by
  obtain ⟨rfl, hw⟩ | ⟨rfl, hw⟩ := hp
  all_goals exact ⟨by simp [pollPrologue, pollEpilogue, primIn, lineOpIn, hb, hw], fun _ => rfl⟩

/-- The four WriteByte lists (R140 to R143). -/
theorem safeFromRest_writeByte (c : Config) (b : ByteSrc) (r : BitSrc) : SafeFromRest c (writeByte c b r) := by
  unfold writeByte
  split <;> rename_i hw hb
  · exact safeFromRest_setRs r ⟨by simp [primIn, lineOpIn, hw], fun _ => rfl⟩
  · exact (safeFromRest_poll hb (.inl ⟨rfl, hw⟩)).append
      (safeFromRest_setRs r ⟨by simp [primIn, lineOpIn, hw], fun _ => rfl⟩)
  · exact safeFromRest_setRs r ⟨by simp [primIn, lineOpIn, hw], fun _ => rfl⟩
  · exact (safeFromRest_poll hb (.inr ⟨rfl, hw⟩)).append
      (safeFromRest_setRs r ⟨by simp [primIn, lineOpIn, hw], fun _ => rfl⟩)

theorem safeFromRest_writeAndSettle (c : Config) (b : ByteSrc) (r : BitSrc) : SafeFromRest c (writeAndSettle c b r) :=
  (safeFromRest_writeByte c b r).append (safeFromRest_wait c .clear)

/-- The mode-lock sequences poll nothing and leave RW and the direction alone (R162, R164). -/
theorem safeFromRest_modeLock (c : Config) : SafeFromRest c (modeLock c) := by
  unfold modeLock
  split <;> rename_i hw
  · exact ⟨by simp [modeLock8, primIn, lineOpIn, hw], fun _ => rfl⟩
  · exact ⟨by simp [modeLock4, primIn, lineOpIn, hw], fun _ => rfl⟩

theorem safeFromRest_initSequence (c : Config) : SafeFromRest c (initSequence c) := by
  have hw : ∀ b r, SafeFromRest c (writeByte c b r) := safeFromRest_writeByte c
  exact (safeFromRest_modeLock c).append
    ((((hw _ _).append (hw _ _)).append (hw _ _)).append (safeFromRest_writeAndSettle c _ _))

theorem safeFromRest_of_mem_expansions {c : Config} {l : List Prim} (h : l ∈ expansions c) : SafeFromRest c l := by
  simp only [expansions, List.mem_cons, List.not_mem_nil, or_false] at h
  obtain rfl | rfl | rfl := h
  · exact safeFromRest_initSequence c
  · exact safeFromRest_writeByte c .val .rsel
  · exact safeFromRest_writeAndSettle c .val .rsel

/-! ## The invariant in two parts -/

/-- The part of `StateOk` that does not speak of the sequencer. -/
structure RegistersOk (s : State) : Prop where
  timedLines : s.cfg.busy = .timed → s.rwQ = false ∧ s.oeQ = true
  lowLines : s.cfg.width = .four → loNibble s.dbQ = 0
  cause : if s.errQ then 1 ≤ s.causeQ.toNat ∧ s.causeQ.toNat ≤ 5 else s.causeQ = 0
  timedStat : s.cfg.busy = .timed → s.statQ = 0

/-- What `seqOk` asks of the primitives to come. -/
structure PlistOk (l : List Prim) (s : State) : Prop where
  build : l.all (primIn s.cfg) = true
  lines : linesSafe (linesOf s) l = true
  inited : s.inited = true

/-- What `seqOk` asks of the pulse under way, and of the primitives after it. -/
structure PulseOk (kind : PulseKind) (rest : List Prim) (s : State) : Prop where
  build : kindIn s.cfg kind = true
  lines : (linesOf s).allow kind = true
  rest : PlistOk rest s

theorem StateOk.registers {s : State} (h : StateOk s) : RegistersOk s :=
  ⟨h.timedLines, h.lowLines, h.cause, h.timedStat⟩

theorem stateOk_of_parts {s : State} (hr : RegistersOk s) (hs : seqOk s) : StateOk s :=
  ⟨hs, hr.timedLines, hr.lowLines, hr.cause, hr.timedStat⟩

/-- In RUN the sequencer's part is the counter, the enable, the current primitive and the primitives to come. -/
theorem seqOk_run_iff {s : State} {cur : Cur} {rest : List Prim} (h : s.seq = .run cur rest) :
    seqOk s ↔ s.dly < curCycles s.cfg cur ∧ s.eQ = inHi cur ∧ curIn s.cfg cur = true ∧
      curAllowed (linesOf s) cur = true ∧ PlistOk rest s := by
  unfold seqOk
  rw [h]
  constructor
  · rintro ⟨hd, he, hc, hb, ha, hl, hi⟩
    exact ⟨hd, he, hc, ha, hb, hl, hi⟩
  · rintro ⟨hd, he, hc, ha, hb, hl, hi⟩
    exact ⟨hd, he, hc, hb, ha, hl, hi⟩

/-- A state in RUN is well formed if its registers are and the sequencer's part holds. -/
theorem stateOk_of_run {s : State} {cur : Cur} {rest : List Prim} (h : s.seq = .run cur rest) (hr : RegistersOk s)
    (hd : s.dly < curCycles s.cfg cur) (he : s.eQ = inHi cur) (hb : curIn s.cfg cur = true)
    (ha : curAllowed (linesOf s) cur = true) (hl : PlistOk rest s) : StateOk s :=
  stateOk_of_parts hr ((seqOk_run_iff h).mpr ⟨hd, he, hb, ha, hl⟩)

/-- The bus is at rest in IDLE (R25, R115, R136). -/
theorem seqOk_idle_iff {s : State} (h : s.seq = .idle) :
    seqOk s ↔ s.eQ = false ∧ s.dly = 0 ∧ s.rwQ = false ∧ s.oeQ = true := by
  unfold seqOk
  rw [h]

/-! ## The operations of the sequencer -/

/-- A one-cycle primitive leaves the control lines as `Lines.after` says, with RS known. -/
theorem linesSafe_applyLine {op : LineOp} {l : List Prim} {s : State} (h : linesSafe ((linesOf s).after op) l = true) :
    linesSafe (linesOf (applyLine op s)) l = true := by
  cases op with
  | setRs v =>
    cases v with
    | const v => exact h
    | rsel => exact linesSafe_of_rs_unknown s.rselQ h
  | setDir d =>
    cases d with
    | output => exact h
    | input => exact h
  | _ => exact h

@[simp] theorem loNibble_setHi (r : Byte) (n : Nibble) : loNibble (setHi r n) = loNibble r :=
  BitVec.extractLsb'_append_eq_right

/-- A primitive of the build moves RW and the direction only in POLLED builds, and drives DB3..DB0 only in 8-bit builds. -/
theorem registersOk_applyLine {op : LineOp} {s : State} (hr : RegistersOk s) (hop : lineOpIn s.cfg op = true) :
    RegistersOk (applyLine op s) := by
  obtain ⟨hl, hn, hc, hs⟩ := hr
  constructor
  · cases op <;> simp_all [lineOpIn]
  · cases op <;> simp_all [lineOpIn]
  · simpa using hc
  · simpa using hs

/-- The first cycle of a phase that has a cycle. -/
theorem stateOk_enterPhase {kind : PulseKind} {ph : PulsePhase} {rest : List Prim} {s : State} (hr : RegistersOk s)
    (hp : PulseOk kind rest s) (hn : 1 ≤ phaseCycles s.cfg ph) : StateOk (enterPhase kind ph rest s) := by
  refine stateOk_of_run rfl ⟨hr.timedLines, hr.lowLines, hr.cause, hr.timedStat⟩ (Nat.sub_one_lt_of_le hn le_rfl) ?_
    hp.build hp.lines ⟨hp.rest.build, hp.rest.lines, hp.rest.inited⟩
  cases ph <;> rfl

/-- A pulse begins with a setup phase only if it has a cycle; the high phase always has one (R12, R108). -/
theorem stateOk_startPulse {kind : PulseKind} {rest : List Prim} {s : State} (hc : s.cfg.conforming = true)
    (hr : RegistersOk s) (hp : PulseOk kind rest s) : StateOk (startPulse kind rest s) := by
  unfold startPulse
  split
  · exact stateOk_enterPhase hr hp (conforming_epw hc)
  · rename_i hsu
    exact stateOk_enterPhase hr hp (Nat.one_le_iff_ne_zero.mpr hsu)

/-- A pulse primitive at the head of the list finds its control lines set. -/
theorem pulseOk_of_head {p : Prim} {kind : PulseKind} {rest : List Prim} {s : State} (h : PlistOk (p :: rest) s)
    (hb : kindIn s.cfg kind = primIn s.cfg p)
    (hl : linesSafe (linesOf s) (p :: rest) = ((linesOf s).allow kind && linesSafe (linesOf s) rest)) :
    PulseOk kind rest s := by
  obtain ⟨hbuild, hlines, hi⟩ := h
  rw [hl, Bool.and_eq_true] at hlines
  rw [List.all_cons, Bool.and_eq_true] at hbuild
  exact ⟨hb.trans hbuild.1, hlines.1, hbuild.2, hlines.2, hi⟩

theorem stateOk_load {l : List Prim} {s : State} (hc : s.cfg.conforming = true) (hr : RegistersOk s) (he : s.eQ = false)
    (hl : PlistOk l s) : StateOk (load l s) := by
  induction l with
  | nil =>
    have hrest := hl.lines
    simp only [linesSafe, Bool.and_eq_true, Bool.not_eq_true'] at hrest
    exact stateOk_of_parts ⟨hr.timedLines, hr.lowLines, hr.cause, hr.timedStat⟩ ⟨he, rfl, hrest⟩
  | cons p rest ih =>
    cases p with
    | line op =>
      obtain ⟨hb, hlines, hi⟩ := hl
      rw [List.all_cons, Bool.and_eq_true] at hb
      have hreg := registersOk_applyLine hr hb.1
      rw [← applyLine_cfg op s] at hb
      exact stateOk_of_run rfl ⟨hreg.timedLines, hreg.lowLines, hreg.cause, hreg.timedStat⟩ Nat.one_pos
        ((applyLine_eQ op s).trans he) hb.1 rfl ⟨hb.2, linesSafe_applyLine hlines, (applyLine_inited op s).trans hi⟩
    | wait k =>
      have hrest : PlistOk rest s := ⟨hl.build, hl.lines, hl.inited⟩
      by_cases hk : delayCycles s.cfg k = 0
      · rw [load_wait_zero k rest s hk]
        exact ih hrest
      · rw [load_wait_pos k rest s hk]
        exact stateOk_of_run rfl ⟨hr.timedLines, hr.lowLines, hr.cause, hr.timedStat⟩ (Nat.sub_one_lt hk) he rfl rfl
          ⟨hrest.build, hrest.lines, hrest.inited⟩
    | pulse => exact stateOk_startPulse hc hr (pulseOk_of_head hl rfl rfl)
    | pulseRd part => exact stateOk_startPulse hc hr (pulseOk_of_head hl rfl rfl)
    | poll8 => exact stateOk_startPulse hc hr (pulseOk_of_head hl rfl rfl)
    | poll4 => exact stateOk_startPulse hc hr (pulseOk_of_head hl rfl rfl)

/-- Only a POLLED build has a pulse that samples (R117). -/
theorem polled_of_samplePart {c : Config} {kind : PulseKind} {part : Part} (hk : kindIn c kind = true)
    (hp : samplePart kind = some part) : c.busy = .polled := by
  cases kind with
  | write => cases hp
  | read part => cases part <;> simp_all [kindIn, primIn]
  | poll8 => simp_all [kindIn, primIn]
  | poll4Hi => simp_all [kindIn, primIn]
  | poll4Lo => simp_all [kindIn, primIn]

theorem registersOk_takeSample {kind : PulseKind} {s : State} (hr : RegistersOk s) (hk : kindIn s.cfg kind = true) :
    RegistersOk (takeSample kind s) := by
  unfold takeSample
  split
  · rename_i part hp
    have hb := polled_of_samplePart hk hp
    exact ⟨hr.timedLines, hr.lowLines, hr.cause, fun ht => by simp [hb] at ht⟩
  · exact hr

theorem pulseOk_takeSample {kind : PulseKind} {rest : List Prim} {s : State} (hp : PulseOk kind rest s) :
    PulseOk kind rest (takeSample kind s) := by
  unfold takeSample
  split
  · exact ⟨hp.build, hp.lines, hp.rest.build, hp.rest.lines, hp.rest.inited⟩
  · exact hp

theorem stateOk_pollTest {again : PulseKind} {rest : List Prim} {s : State} (hc : s.cfg.conforming = true)
    (hr : RegistersOk s) (he : s.eQ = false) (hp : PulseOk again rest s) : StateOk (pollTest again rest s) := by
  unfold pollTest
  split
  · exact stateOk_startPulse hc hr hp
  · exact stateOk_load hc hr he hp.rest

/-- After a pulse: the primitives after it, or another pulse of the same poll, which needs the same control lines. -/
theorem stateOk_endPulse {kind : PulseKind} {rest : List Prim} {s : State} (hc : s.cfg.conforming = true)
    (hr : RegistersOk s) (he : s.eQ = false) (hp : PulseOk kind rest s) : StateOk (endPulse kind rest s) := by
  cases kind with
  | write => exact stateOk_load hc hr he hp.rest
  | read part => exact stateOk_load hc hr he hp.rest
  | poll8 => exact stateOk_pollTest hc hr he hp
  | poll4Hi => exact stateOk_startPulse hc hr ⟨hp.build, hp.lines, hp.rest⟩
  | poll4Lo => exact stateOk_pollTest hc hr he ⟨hp.build, hp.lines, hp.rest⟩

theorem stateOk_finish {cur : Cur} {rest : List Prim} {s : State} (hc : s.cfg.conforming = true) (h : StateOk s)
    (hs : s.seq = .run cur rest) : StateOk (finish cur rest s) := by
  have hr := h.registers
  obtain ⟨-, he, hb, ha, hl⟩ := (seqOk_run_iff hs).mp h.seq
  cases cur with
  | line op => exact stateOk_load hc hr he hl
  | wait k => exact stateOk_load hc hr he hl
  | pulse kind ph =>
    have hp : PulseOk kind rest s := ⟨hb, ha, hl⟩
    cases ph with
    | su => exact stateOk_enterPhase hr hp (conforming_epw hc)
    | hi =>
      refine stateOk_enterPhase (registersOk_takeSample hr hb) (pulseOk_takeSample hp) ?_
      rw [takeSample_cfg]
      exact conforming_eh hc
    | eh => exact stateOk_endPulse hc hr he hp

theorem stateOk_advance {cur : Cur} {rest : List Prim} {s : State} (hc : s.cfg.conforming = true) (h : StateOk s)
    (hs : s.seq = .run cur rest) : StateOk (advance cur rest s) := by
  unfold advance
  split
  · exact stateOk_finish hc h hs
  · obtain ⟨hd, he, hb, ha, hl⟩ := (seqOk_run_iff hs).mp h.seq
    exact stateOk_of_run hs ⟨h.timedLines, h.lowLines, h.cause, h.timedStat⟩ ((Nat.sub_le _ _).trans_lt hd) he hb ha
      ⟨hl.build, hl.lines, hl.inited⟩

/-! ## The edge -/

theorem stateOk_illegalRequest (c : Cause) {s : State} (h : StateOk s) : StateOk (illegalRequest c s) := by
  unfold illegalRequest recordError
  split
  · exact h
  · have hcode : 1 ≤ (causeCode c).toNat ∧ (causeCode c).toNat ≤ 5 := by cases c <;> decide
    exact ⟨h.seq, h.timedLines, h.lowLines, by simpa using hcode, h.timedStat⟩

/-- An acceptance from IDLE finds the bus at rest, where every expansion may begin. -/
theorem stateOk_accepted {i : Instr} {s t : State} (hc : s.cfg.conforming = true) (h : StateOk s) (hs : s.seq = .idle)
    (ha : Accepted i s t) : StateOk t := by
  obtain ⟨he, -, hrw, hoe⟩ := (seqOk_idle_iff hs).mp h.seq
  obtain ⟨val, rsel, expansion, l, hmem, -, rfl⟩ := ha.loads
  have hx := safeFromRest_of_mem_expansions hmem
  have hlines : linesSafe (linesOf s) expansion = true := by
    simpa only [linesOf, hrw, hoe] using hx.lines (some s.rsQ)
  exact stateOk_load hc ⟨h.timedLines, h.lowLines, h.cause, h.timedStat⟩ he ⟨hx.build, hlines, rfl⟩

theorem stateOk_acceptRequest {s t : State} (hc : s.cfg.conforming = true) (h : StateOk s) (hs : s.seq = .idle)
    (ha : acceptRequest s = .next t) : StateOk t := by
  obtain ⟨c, -, rfl⟩ | ⟨i, -, -, hacc⟩ := acceptRequest_cases ha
  · exact stateOk_illegalRequest c h
  · exact stateOk_accepted hc h hs hacc

theorem stateOk_resetEdge (s : State) : StateOk (resetEdge s) :=
  ⟨⟨rfl, rfl, rfl, rfl⟩, fun _ => ⟨rfl, rfl⟩, fun _ => rfl, rfl, fun _ => rfl⟩

theorem stateOk_edge {s t : State} (hc : s.cfg.conforming = true) (h : StateOk s) (he : edge s = .next t) : StateOk t := by
  obtain ⟨-, rfl⟩ | ⟨-, rfl⟩ | ⟨-, -, cur, rest, hs, rfl⟩ | ⟨-, hs, -, ha⟩ | ⟨-, -, -, rfl⟩ := edge_cases he
  · exact stateOk_resetEdge s
  · exact h
  · exact stateOk_advance hc h hs
  · exact stateOk_acceptRequest hc h hs ha
  · exact h

/-- The input levels are no part of the invariant. -/
theorem stateOk_nextInputs {s : State} (h : StateOk s) : StateOk (nextInputs s) :=
  ⟨h.seq, h.timedLines, h.lowLines, h.cause, h.timedStat⟩

/-- Settles O32: a step is an edge, which keeps the invariant in each of its five cases (only a conforming build steps, so
every phase it enters has a cycle), and then the next cycle's input levels. -/
theorem stepKeepsStateOk : Obligations.StepKeepsStateOk := by
  intro s t h hstep
  obtain ⟨hc, u, hu, rfl⟩ := step_cases hstep
  exact stateOk_nextInputs (stateOk_edge hc h hu)

end Sys2Proof.Safety
end

section
/-! The input levels in RUN: a cycle of the sequencer looks at nothing of the input ports but the sample it takes of
`lcd_db_i` (20_memory.md R60, R68; 41_signal_driver.md R112). -/
namespace Sys2Proof.Machine

theorem load_withInp (l : List Prim) (s : State) (i : Inputs) : load l { s with inp := i } = { load l s with inp := i } := by
  simpa using load_env l s i s.tape s.tick

theorem startPulse_withInp (kind : PulseKind) (rest : List Prim) (s : State) (i : Inputs) :
    startPulse kind rest { s with inp := i } = { startPulse kind rest s with inp := i } := by
  unfold startPulse
  split <;> rfl

theorem pollTest_withInp (again : PulseKind) (rest : List Prim) (s : State) (i : Inputs) :
    pollTest again rest { s with inp := i } = { pollTest again rest s with inp := i } := by
  unfold pollTest
  split
  · exact startPulse_withInp again rest s i
  · exact load_withInp rest s i

theorem endPulse_withInp (kind : PulseKind) (rest : List Prim) (s : State) (i : Inputs) :
    endPulse kind rest { s with inp := i } = { endPulse kind rest s with inp := i } := by
  cases kind with
  | write => exact load_withInp rest s i
  | read part => exact load_withInp rest s i
  | poll8 => exact pollTest_withInp .poll8 rest s i
  | poll4Hi => exact startPulse_withInp .poll4Lo rest s i
  | poll4Lo => exact pollTest_withInp .poll4Hi rest s i

theorem takeSample_withInp {kind : PulseKind} {s : State} {i : Inputs} (h : i.lcdDbI = s.inp.lcdDbI) :
    takeSample kind { s with inp := i } = { takeSample kind s with inp := i } := by
  unfold takeSample
  split
  · rw [h]
  · rfl

/-- The end of a phase looks at the input levels only for a sample, at the end of a high phase. -/
theorem finish_withInp {cur : Cur} {s : State} {i : Inputs} (rest : List Prim)
    (h : ∀ kind, cur = .pulse kind .hi → takeSample kind { s with inp := i } = { takeSample kind s with inp := i }) :
    finish cur rest { s with inp := i } = { finish cur rest s with inp := i } := by
  cases cur with
  | line op => exact load_withInp rest s i
  | wait k => exact load_withInp rest s i
  | pulse kind ph =>
    cases ph with
    | su => rfl
    | hi => exact congrArg (enterPhase kind .eh rest) (h kind rfl)
    | eh => exact endPulse_withInp kind rest s i

/-- A cycle of RUN looks at the input levels only for a sample, in the last cycle of a high phase. -/
theorem advance_withInp {cur : Cur} {s : State} {i : Inputs} (rest : List Prim)
    (h : s.dly = 0 → ∀ kind, cur = .pulse kind .hi →
      takeSample kind { s with inp := i } = { takeSample kind s with inp := i }) :
    advance cur rest { s with inp := i } = { advance cur rest s with inp := i } := by
  unfold advance
  split
  · exact finish_withInp rest (h ‹_›)
  · rfl

/-- The levels of the present cycle are gone in the next one. -/
theorem nextInputs_withInp (s : State) (i : Inputs) : nextInputs { s with inp := i } = nextInputs s := rfl

/-- Whether a cycle is an extra one depends on no port but `rst`. -/
theorem extraCycle_withInp {s : State} {i : Inputs} (hr : i.rst = s.inp.rst) (hx : i.extra = s.inp.extra) :
    extraCycle { s with inp := i } = extraCycle s := by
  simp [extraCycle, isIdle, hr, hx]

/-- A step in RUN depends on the present input levels only through `rst`, the implementation's choice of an extra cycle,
and a sample. -/
theorem step_withInp_of_run {s : State} {cur : Cur} {rest : List Prim} {i : Inputs} (hs : s.seq = .run cur rest)
    (hr : s.inp.rst = false) (hir : i.rst = false) (hix : i.extra = s.inp.extra)
    (h : s.dly = 0 → ∀ kind, cur = .pulse kind .hi →
      takeSample kind { s with inp := i } = { takeSample kind s with inp := i }) :
    step { s with inp := i } = step s := by
  have hx : extraCycle { s with inp := i } = extraCycle s := extraCycle_withInp (hir.trans hr.symm) hix
  cases hc : s.cfg.conforming with
  | false => simp [step, clock, hc]
  | true =>
    cases hxs : extraCycle s with
    | true => rw [step_extra hc hxs, step_extra (s := { s with inp := i }) hc (hx.trans hxs), nextInputs_withInp]
    | false =>
      rw [step_run hc hr hxs hs, step_run (s := { s with inp := i }) hc hir (hx.trans hxs) hs, advance_withInp rest h,
        nextInputs_withInp]

/-- Settles O13: of the input levels a step in RUN uses `rst`, the choice of an extra cycle and `lcd_db_i`, all of them the
same here. -/
theorem requestPortIgnoredInRun : Obligations.RequestPortIgnoredInRun := by
  intro s cur rest v w hs hr
  exact step_withInp_of_run hs hr hr rfl fun _ _ _ => takeSample_withInp rfl

end Sys2Proof.Machine
end

section
/-! The nibbles of the status register (20_memory.md R56). -/
namespace Sys2Proof.Machine

@[simp] theorem hiNibble_setHi (r : Byte) (n : Nibble) : hiNibble (setHi r n) = n :=
  BitVec.extractLsb'_append_eq_left

@[simp] theorem hiNibble_setLo (r : Byte) (n : Nibble) : hiNibble (setLo r n) = hiNibble r :=
  BitVec.extractLsb'_append_eq_left

@[simp] theorem loNibble_setLo (r : Byte) (n : Nibble) : loNibble (setLo r n) = n :=
  BitVec.extractLsb'_append_eq_right

@[simp] theorem sampleInto_full (stat smp : Byte) : sampleInto .full stat smp = smp := rfl

@[simp] theorem sampleInto_hi (stat smp : Byte) : sampleInto .hi stat smp = setHi stat (hiNibble smp) := rfl

@[simp] theorem sampleInto_lo (stat smp : Byte) : sampleInto .lo stat smp = setLo stat (hiNibble smp) := rfl

/-- Settles O45: each part writes its own nibble of the register from DB7..DB4 and leaves the other. -/
theorem statusIsAssembled : Obligations.StatusIsAssembled := by
  intro stat d h l
  refine ⟨sampleInto_full stat d, ?_, ?_, ?_, ?_⟩
  · rw [sampleInto_lo, hiNibble_setLo, sampleInto_hi, hiNibble_setHi]
  · rw [sampleInto_lo, loNibble_setLo]
  · rw [sampleInto_hi, Safety.loNibble_setHi]
  · rw [sampleInto_lo, hiNibble_setLo]

end Sys2Proof.Machine
end

section
/-! The bus events of R69 and their direction (42_byte_transfer.md R135): the enable is 1 only in the high phase of a pulse,
a well-formed state has the pulse's control lines set there, and without a reset the enable falls only at the phase's end. -/
namespace Sys2Proof.Safety
open Sys2Proof.Machine

/-- Every event is a fall of the enable; RW says whether it is a write or a read, and a read has no value exactly if a reset
comes before its sample (log 11). -/
theorem busEvent_cases {s t : State} {e : BusEvent} (h : busEvent s t = some e) :
    s.eQ = true ∧ t.eQ = false ∧
      (s.rwQ = false ∧ e = .write s.rsQ (busData s) ∨
        s.rwQ = true ∧ (s.inp.rst = true → sampling s = true) ∧ e = .read s.rsQ s.inp.lcdDbI ∨
        s.rwQ = true ∧ s.inp.rst = true ∧ sampling s = false ∧ e = .readCut s.rsQ) := by
  unfold busEvent at h
  split at h
  · rename_i hfall
    rw [Bool.and_eq_true, Bool.not_eq_true'] at hfall
    refine ⟨hfall.1, hfall.2, ?_⟩
    split at h
    · rename_i hw
      split at h <;> rename_i hcut <;> cases h
      · rw [Bool.and_eq_true, Bool.not_eq_true'] at hcut
        exact .inr (.inr ⟨hw, hcut.1, hcut.2, rfl⟩)
      · exact .inr (.inl ⟨hw, by simpa using hcut, rfl⟩)
    · rename_i hw
      cases h
      exact .inl ⟨Bool.eq_false_of_not_eq_true hw, rfl⟩
  · cases h

/-! ## The high phase of a pulse -/

/-- What a well-formed state shows in the high phase of a pulse of the given kind: the enable, and the control lines that
kind needs (R109, R135). -/
structure HighPhase (kind : PulseKind) (s : State) : Prop where
  enable : s.eQ = true
  rw : s.rwQ = (samplePart kind).isSome
  oe : s.oeQ = !(samplePart kind).isSome
  rs : (samplePart kind).isSome = true → s.rsQ = false
  polled : (samplePart kind).isSome = true → s.cfg.busy = .polled

/-- The control lines a kind of pulse is allowed with are those of a write or of a read, by whether it samples (R135). -/
theorem lines_of_allow {l : Lines} {kind : PulseKind} (h : l.allow kind = true) :
    l.rw = (samplePart kind).isSome ∧ l.oe = !(samplePart kind).isSome ∧
      ((samplePart kind).isSome = true → l.rs = some false) := by
  cases kind <;> simp_all [Lines.allow, samplePart]

theorem highPhase_of_stateOk {s : State} {kind : PulseKind} {rest : List Prim} (h : StateOk s)
    (hs : s.seq = .run (.pulse kind .hi) rest) : HighPhase kind s := by
  obtain ⟨-, he, hb, ha, -⟩ := (seqOk_run_iff hs).mp h.seq
  obtain ⟨hrw, hoe, hrs⟩ := lines_of_allow ha
  refine ⟨he, hrw, hoe, fun hp => Option.some.inj (hrs hp), fun hp => ?_⟩
  obtain ⟨part, hpart⟩ := Option.isSome_iff_exists.mp hp
  exact polled_of_samplePart hb hpart

/-- The enable is 1 in no other phase (R109). -/
theorem run_hi_of_enable {s : State} (h : StateOk s) (he : s.eQ = true) :
    ∃ kind rest, s.seq = .run (.pulse kind .hi) rest := by
  have hq := h.seq
  cases hs : s.seq with
  | idle =>
    obtain ⟨hoff, -⟩ := (seqOk_idle_iff hs).mp hq
    cases he.symm.trans hoff
  | run cur rest =>
    obtain ⟨-, hhi, -⟩ := (seqOk_run_iff hs).mp hq
    rw [he] at hhi
    cases cur with
    | line op => cases hhi
    | wait k => cases hhi
    | pulse kind ph =>
      cases ph with
      | su => cases hhi
      | hi => exact ⟨kind, rest, rfl⟩
      | eh => cases hhi

theorem sampling_of_hi {s : State} {kind : PulseKind} {rest : List Prim} (hs : s.seq = .run (.pulse kind .hi) rest) :
    sampling s = (s.dly == 0 && (samplePart kind).isSome && !extraCycle s) := by
  unfold sampling
  rw [hs]

/-- Without a reset the enable falls only at the end of the phase, in a cycle that is no extra one (R108, R101). -/
theorem last_cycle_of_fall {s u : State} {kind : PulseKind} {rest : List Prim} (hs : s.seq = .run (.pulse kind .hi) rest)
    (he : s.eQ = true) (hr : s.inp.rst = false) (hu : edge s = .next u) (hfall : u.eQ = false) :
    s.dly = 0 ∧ extraCycle s = false := by
  obtain ⟨hrst, -⟩ | ⟨-, rfl⟩ | ⟨-, hx, cur, rest', -, rfl⟩ | ⟨-, hidle, -⟩ | ⟨-, hidle, -⟩ := edge_cases hu
  · cases hrst.symm.trans hr
  · cases he.symm.trans hfall
  · refine ⟨by_contra fun hd => ?_, hx⟩
    rw [advance, if_neg hd] at hfall
    cases he.symm.trans hfall
  · cases hidle.symm.trans hs
  · cases hidle.symm.trans hs

/-- A read pulse that ends without a reset ends with its sample (R112). -/
theorem sampling_of_fall {s u : State} {kind : PulseKind} {rest : List Prim} (hs : s.seq = .run (.pulse kind .hi) rest)
    (hp : HighPhase kind s) (hread : s.rwQ = true) (hr : s.inp.rst = false) (hu : edge s = .next u)
    (hfall : u.eQ = false) : sampling s = true := by
  obtain ⟨hd, hx⟩ := last_cycle_of_fall hs hp.enable hr hu hfall
  rw [sampling_of_hi hs, hd, hx, ← hp.rw, hread]
  rfl

/-- Settles O39: an event is a fall of the enable, so the state is in the high phase of a pulse, and RW, which decides
whether the event is a write or a read, is that of the pulse, as are RS and the direction. A read event has its sample because
only a reset ends the phase early. -/
theorem eventsHaveTheirDirection : Obligations.EventsHaveTheirDirection := by
  intro s t hok hstep
  obtain ⟨-, u, hu, rfl⟩ := step_cases hstep
  have hhigh (he : s.eQ = true) : ∃ kind rest, s.seq = .run (.pulse kind .hi) rest ∧ HighPhase kind s := by
    obtain ⟨kind, rest, hs⟩ := run_hi_of_enable hok he
    exact ⟨kind, rest, hs, highPhase_of_stateOk hok hs⟩
  refine ⟨fun rs v h => ?_, fun rs d h => ?_, fun rs h => ?_⟩
  all_goals
    obtain ⟨he, hfall, ⟨hw, hev⟩ | ⟨hw, hsample, hev⟩ | ⟨hw, hr, hnot, hev⟩⟩ := busEvent_cases h <;> cases hev
    obtain ⟨kind, rest, hs, hp⟩ := hhigh he
    have hkind := hp.rw.symm.trans hw
    have hoe := hp.oe.trans (congrArg not hkind)
  · exact ⟨rfl, hw, hoe, rfl⟩
  · refine ⟨hp.rs hkind, hw, hoe, rfl, ?_, hp.polled hkind⟩
    cases hr : s.inp.rst with
    | true => exact hsample hr
    | false => exact sampling_of_fall hs hp hw hr hu hfall
  · exact ⟨hp.rs hkind, hw, hoe, hr, hnot, hp.polled hkind⟩

/-- Settles O52: the reset drops the enable, and the lines of the high phase say which event that is; with a reset no cycle
is an extra one, so a read pulse samples exactly in the last cycle of the phase. -/
theorem resetCutsPulse : Obligations.ResetCutsPulse := by
  intro s kind rest hok hc hr hs
  have hp := highPhase_of_stateOk hok hs
  refine ⟨_, step_of_edge hc (u := resetEdge s) (by simp [edge, hr]), rfl, ?_⟩
  rw [busEvent_resetEdge hr, if_pos hp.enable, hp.rw, sampling_of_hi hs, extraCycle_of_rst hr]
  cases hread : (samplePart kind).isSome with
  | false => rfl
  | true =>
    rw [hp.rs hread]
    cases s.dly <;> rfl

end Sys2Proof.Safety
end

section
/-! Decoding and encoding (30_encoding.md R70 to R74): the rows of the opcode table one by one, and what they have in
common. -/
namespace Sys2Proof

theorem ifZero_eq_ok_iff {zero : Bool} {i j : Instr} : ifZero zero i = .ok j ↔ zero = true ∧ i = j := by
  cases zero <;> simp [ifZero]

theorem ifZero_eq_error_iff {zero : Bool} {i : Instr} {e : DecodeError} :
    ifZero zero i = .error e ↔ zero = false ∧ e = .nonzeroField := by
  cases zero <;> simp [ifZero, eq_comm]

/-- The fields that the row of the word's opcode fixes at 0 are 0 (R73). -/
def zeroFields (w : ReqWord) : Bool :=
  fieldZ w == 0 && (fieldOp w == 5 || fieldY w == 0) &&
    (!(fieldOp w == 0 || fieldOp w == 3 || fieldOp w == 4) || fieldArg w == 0)

theorem zeroFields_eq_true_iff {w : ReqWord} :
    zeroFields w = true ↔ fieldZ w = 0 ∧ (fieldOp w ≠ 5 → fieldY w = 0) ∧
      (fieldOp w = 0 ∨ fieldOp w = 3 ∨ fieldOp w = 4 → fieldArg w = 0) := by
  simp only [zeroFields, Bool.and_eq_true, Bool.or_eq_true, Bool.not_eq_true', Bool.or_eq_false_iff,
    beq_iff_eq, beq_eq_false_iff_ne]
  tauto

theorem zeroFields_eq_false_iff {w : ReqWord} :
    zeroFields w = false ↔ fieldZ w ≠ 0 ∨ (fieldOp w ≠ 5 ∧ fieldY w ≠ 0) ∨
      ((fieldOp w = 0 ∨ fieldOp w = 3 ∨ fieldOp w = 4) ∧ fieldArg w ≠ 0) := by
  rw [← Bool.not_eq_true, zeroFields_eq_true_iff]
  tauto

/-! ## The rows of R72 -/

section Rows
variable {w : ReqWord}

theorem decode_of_op_init (h : fieldOp w = 0x0) : decode w = ifZero (zeroFields w) .init := by
  simp [decode, zeroFields, h, Bool.and_comm]

theorem decode_of_op_cmd (h : fieldOp w = 0x1) : decode w = ifZero (zeroFields w) (.cmd (fieldArg w)) := by
  simp [decode, zeroFields, h, Bool.and_comm]

theorem decode_of_op_data (h : fieldOp w = 0x2) : decode w = ifZero (zeroFields w) (.data (fieldArg w)) := by
  simp [decode, zeroFields, h, Bool.and_comm]

theorem decode_of_op_clear (h : fieldOp w = 0x3) : decode w = ifZero (zeroFields w) .clear := by
  simp [decode, zeroFields, h, Bool.and_comm]

theorem decode_of_op_home (h : fieldOp w = 0x4) : decode w = ifZero (zeroFields w) .home := by
  simp [decode, zeroFields, h, Bool.and_comm]

theorem decode_of_op_goto (h : fieldOp w = 0x5) :
    decode w = ifZero (zeroFields w) (.goto (fieldArg w) (fieldY w)) := by
  simp [decode, zeroFields, h]

theorem decode_of_op_putc (h : fieldOp w = 0x6) : decode w = ifZero (zeroFields w) (.putc (fieldArg w)) := by
  simp [decode, zeroFields, h, Bool.and_comm]

/-- The opcodes beyond the rows of R72 are reserved (R74). -/
theorem decode_of_op_reserved (h : 7 ≤ (fieldOp w).toNat) : decode w = .error .reservedOpcode := by
  obtain ⟨n, hn⟩ := Nat.exists_eq_add_of_le' h
  simp [decode, hn]

end Rows

/-! ## From the request to the word and back -/

/-- A request's word is 0 where its row fixes a field (R73). -/
theorem zeroFields_encode (i : Instr) : zeroFields (encode i) = true := by
  cases i <;> simp [encode, zeroFields]

/-- A request's word is in the request's row, with the operands in their fields (R72). -/
theorem decode_encode_eq_ifZero (i : Instr) : decode (encode i) = ifZero (zeroFields (encode i)) i := by
  cases i with
  | init => exact decode_of_op_init (fieldOp_reqWord ..)
  | cmd b => simpa [encode] using decode_of_op_cmd (w := encode (.cmd b)) (fieldOp_reqWord ..)
  | data b => simpa [encode] using decode_of_op_data (w := encode (.data b)) (fieldOp_reqWord ..)
  | clear => exact decode_of_op_clear (fieldOp_reqWord ..)
  | home => exact decode_of_op_home (fieldOp_reqWord ..)
  | goto x y => simpa [encode] using decode_of_op_goto (w := encode (.goto x y)) (fieldOp_reqWord ..)
  | putc c => simpa [encode] using decode_of_op_putc (w := encode (.putc c)) (fieldOp_reqWord ..)

/-- Settles O2: the row of the request's word gives the request back, if its must-be-zero fields are 0, and they are. -/
theorem decodeOfEncode : Obligations.DecodeOfEncode := by
  intro i
  rw [decode_encode_eq_ifZero, zeroFields_encode]
  rfl

/-- Settles O1: each of the words is the word of its request. -/
theorem specWordsDecode : Obligations.SpecWordsDecode :=
  ⟨decodeOfEncode .init, decodeOfEncode (.cmd 0x0F), decodeOfEncode (.data 0x0A), decodeOfEncode .clear,
    decodeOfEncode .home, decodeOfEncode (.goto 5 1), decodeOfEncode (.goto 255 1), decodeOfEncode (.goto 0 3),
    decodeOfEncode (.putc 0x41), decodeOfEncode (.putc 0x00)⟩

theorem reqWord_eq_of_fields {w : ReqWord} {op : BitVec 4} {y : BitVec 2} {a : Byte} (hop : fieldOp w = op)
    (hy : fieldY w = y) (hz : fieldZ w = 0) (ha : fieldArg w = a) : reqWord op y a = w := by
  rw [← hop, ← hy, ← ha, reqWord_fields w hz]

theorem op_cases_of_lt {op : BitVec 4} (h : op.toNat < 7) :
    op = 0 ∨ op = 1 ∨ op = 2 ∨ op = 3 ∨ op = 4 ∨ op = 5 ∨ op = 6 := by
  revert op
  decide

/-- Every row gives one request, exactly if the row's must-be-zero fields are 0, and then the request has all the bits of
the word. -/
theorem decode_of_op_lt {w : ReqWord} (h : (fieldOp w).toNat < 7) :
    ∃ i, decode w = ifZero (zeroFields w) i ∧ (zeroFields w = true → encode i = w) := by
  rw [zeroFields_eq_true_iff]
  obtain hop | hop | hop | hop | hop | hop | hop := op_cases_of_lt h
  · exact ⟨.init, decode_of_op_init hop, fun ⟨hz, hy, ha⟩ =>
      reqWord_eq_of_fields hop (hy (by simp [hop])) hz (ha (by simp [hop]))⟩
  · exact ⟨.cmd _, decode_of_op_cmd hop, fun ⟨hz, hy, _⟩ => reqWord_eq_of_fields hop (hy (by simp [hop])) hz rfl⟩
  · exact ⟨.data _, decode_of_op_data hop, fun ⟨hz, hy, _⟩ => reqWord_eq_of_fields hop (hy (by simp [hop])) hz rfl⟩
  · exact ⟨.clear, decode_of_op_clear hop, fun ⟨hz, hy, ha⟩ =>
      reqWord_eq_of_fields hop (hy (by simp [hop])) hz (ha (by simp [hop]))⟩
  · exact ⟨.home, decode_of_op_home hop, fun ⟨hz, hy, ha⟩ =>
      reqWord_eq_of_fields hop (hy (by simp [hop])) hz (ha (by simp [hop]))⟩
  · exact ⟨.goto _ _, decode_of_op_goto hop, fun ⟨hz, _⟩ => reqWord_eq_of_fields hop rfl hz rfl⟩
  · exact ⟨.putc _, decode_of_op_putc hop, fun ⟨hz, hy, _⟩ => reqWord_eq_of_fields hop (hy (by simp [hop])) hz rfl⟩

/-- Settles O3: only a row with zeros where it fixes them gives a request, and that request has the word's bits. -/
theorem encodeOfDecode : Obligations.EncodeOfDecode := by
  intro w j hw
  obtain hop | hop := Nat.lt_or_ge (fieldOp w).toNat 7
  · obtain ⟨i, hd, henc⟩ := decode_of_op_lt hop
    obtain ⟨hz, rfl⟩ := ifZero_eq_ok_iff.mp (hd.symm.trans hw)
    exact henc hz
  · cases (decode_of_op_reserved hop).symm.trans hw

/-- Settles O4: below 7 the opcode has a row, which fails only by its must-be-zero fields; from 7 on it has none. -/
theorem decoderRejects : Obligations.DecoderRejects := by
  intro w
  rw [← zeroFields_eq_false_iff]
  obtain hop | hop := Nat.lt_or_ge (fieldOp w).toNat 7
  · obtain ⟨i, hd, -⟩ := decode_of_op_lt hop
    simp [hd, ifZero_eq_error_iff, hop]
  · simp [decode_of_op_reserved hop, hop]

end Sys2Proof
end

section
/-! The assembler (30_encoding.md R85 to R88): the word of a request as shifts, the operands it takes, PUTS, and the calls
of the source's interface. -/
namespace Sys2Proof

/-- The word as R85 writes it: a bit of one of the three parts is 0 in the other two. -/
theorem reqWord_eq_shifts (op : BitVec 4) (y : BitVec 2) (a : Byte) :
    reqWord op y a = (op.zeroExtend 16 : ReqWord) <<< 12 ||| (y.zeroExtend 16 : ReqWord) <<< 10 ||| a.zeroExtend 16 := by
  apply BitVec.eq_of_getLsbD_eq
  intro i hi
  have ha : 8 ≤ i → a.getLsbD i = false := BitVec.getLsbD_of_ge a i
  have hy : 2 ≤ i - 10 → y.getLsbD (i - 10) = false := BitVec.getLsbD_of_ge y (i - 10)
  rw [getLsbD_reqWord]
  by_cases h8 : i < 8
  · simp [h8, hi, show i < 10 by omega, show i < 12 by omega]
  by_cases h10 : i < 10
  · simp [h8, h10, show i < 12 by omega, ha (by omega)]
  by_cases h12 : i < 12
  · simp [h8, h10, h12, hi, ha (by omega)]
  · simp [h8, h10, h12, hi, ha (by omega), hy (by omega)]

/-- The word of a request without a line, as R85 writes it. -/
theorem reqWord_zero_eq_shift (op : BitVec 4) (a : Byte) :
    reqWord op 0 a = (op.zeroExtend 16 : ReqWord) <<< 12 ||| a.zeroExtend 16 := by
  rw [reqWord_eq_shifts]
  simp

/-- Settles O5: every word is one of `reqWord`, with the request's opcode. -/
theorem assemblyFormula : Obligations.AssemblyFormula :=
  ⟨rfl, rfl, rfl, reqWord_zero_eq_shift 1, reqWord_zero_eq_shift 2, fun x y => reqWord_eq_shifts 5 y x,
    reqWord_zero_eq_shift 6⟩

/-! ## Source lines -/

theorem assemble_of_wellFormed {l : SourceLine} (h : l.wellFormed = true) : assemble l = some (l.expand.map encode) := by
  simp [assemble, h]

theorem assemble_isSome_iff {l : SourceLine} : (assemble l).isSome ↔ l.wellFormed = true := by
  simp [assemble]

@[simp] theorem fits_num_iff {n bound : Nat} : (Operand.num n).fits bound = true ↔ n < bound := by
  simp [Operand.fits, Operand.value]

@[simp] theorem field_num_toNat {width : Nat} (b : BitVec width) : (Operand.num b.toNat).field width = b := by
  simp [Operand.field, Operand.value]

/-- Settles O6: the bounds of R85 are those of `SourceLine.wellFormed`, one more for being strict. -/
theorem assemblerChecksOperands : Obligations.AssemblerChecksOperands := by
  intro n m
  simp only [assemble_isSome_iff, SourceLine.wellFormed, Bool.and_eq_true, fits_num_iff]
  omega

theorem untilNul_of_not_mem {s : List Byte} (h : 0 ∉ s) : untilNul s = s := by
  induction s with
  | nil => rfl
  | cons b rest ih =>
    obtain ⟨hb, hrest⟩ := List.ne_and_not_mem_of_not_mem_cons h
    rw [untilNul, if_neg hb.symm, ih hrest]

theorem untilNul_append_nul {s : List Byte} (r : List Byte) (h : 0 ∉ s) : untilNul (s ++ 0 :: r) = s := by
  induction s with
  | nil => rfl
  | cons b rest ih =>
    obtain ⟨hb, hrest⟩ := List.ne_and_not_mem_of_not_mem_cons h
    rw [List.cons_append, untilNul, if_neg hb.symm, ih hrest]

/-- PUTS is one PUTC a byte of the part before the first 0x00 (R86). -/
theorem assemble_puts (s : List Byte) :
    assemble (.puts s) = some ((untilNul s).map fun b => (0x6000 : ReqWord) ||| b.zeroExtend 16) := by
  rw [assemble_of_wellFormed rfl, SourceLine.expand, List.map_map]
  exact congrArg (fun f => some ((untilNul s).map f)) (funext (reqWord_zero_eq_shift 6))

/-- Settles O7: the part before the first 0x00 is the string itself, whether or not a 0x00 ends it. -/
theorem putsExpandsToPutc : Obligations.PutsExpandsToPutc := by
  refine ⟨fun s h => ?_, fun s r h => ?_, rfl⟩
  · rw [assemble_puts, untilNul_of_not_mem h]
  · rw [assemble_puts, untilNul_append_nul r h]

/-! ## The source's interface -/

/-- The request of a call, but for `put_string`, which stands for one request a byte (R88). -/
def ApiCall.request : ApiCall → Option Instr
  | .initApi => some .init
  | .clear => some .clear
  | .home => some .home
  | .goto x y => some (.goto x y)
  | .putChar c => some (.putc c)
  | .putString _ => none
  | .sendCommand b => some (.cmd b)
  | .sendData b => some (.data b)

/-- A call's operands have their fields' types, so the assembler takes its line. -/
theorem wellFormed_line (a : ApiCall) : a.line.wellFormed = true := by
  cases a with
  | goto x y => simp [ApiCall.line, SourceLine.wellFormed, x.isLt, y.isLt]
  | putChar c => simp [ApiCall.line, SourceLine.wellFormed, c.isLt]
  | sendCommand b => simp [ApiCall.line, SourceLine.wellFormed, b.isLt]
  | sendData b => simp [ApiCall.line, SourceLine.wellFormed, b.isLt]
  | _ => rfl

theorem expand_line {a : ApiCall} {i : Instr} (h : a.request = some i) : a.line.expand = [i] := by
  cases a <;> cases h <;> simp [ApiCall.line, SourceLine.expand]

theorem assemble_line {a : ApiCall} {i : Instr} (h : a.request = some i) : assemble a.line = some [encode i] := by
  rw [assemble_of_wellFormed (wellFormed_line a), expand_line h]
  rfl

/-- Settles O8: a call's line is well formed and expands to the call's request. -/
theorem apiMapsToRequests : Obligations.ApiMapsToRequests :=
  ⟨assemble_line rfl, assemble_line rfl, assemble_line rfl, fun _ _ => assemble_line rfl, fun _ => assemble_line rfl,
    fun _ => rfl, fun _ => assemble_line rfl, fun _ => assemble_line rfl, rfl, rfl⟩

end Sys2Proof
end

section
/-! A step in IDLE (30_encoding.md R75, R76; 41_signal_driver.md R114). -/
namespace Sys2Proof.Machine

theorem extraCycle_of_idle {s : State} (h : s.seq = .idle) : extraCycle s = false := by
  simp [extraCycle, isIdle, h]

/-- With a request presented the edge is its acceptance (R75, R76). -/
theorem edge_of_request {s : State} (hr : s.inp.rst = false) (hs : s.seq = .idle) (hv : s.inp.reqValid = true) :
    edge s = acceptRequest s := by
  simp [edge, hr, extraCycle_of_idle hs, hs, hv]

/-- Without a request everything holds (R114). -/
theorem edge_of_no_request {s : State} (hr : s.inp.rst = false) (hs : s.seq = .idle) (hv : s.inp.reqValid = false) :
    edge s = .next s := by
  simp [edge, hr, extraCycle_of_idle hs, hs, hv]

theorem acceptRequest_of_decode {s : State} {i : Instr} (h : decode s.inp.reqWord = .ok i) :
    acceptRequest s = exec i s := by
  simp [acceptRequest, h]

/-- Settles O9: the edge is the acceptance of the decoded request, which answers a next state. -/
theorem stepRunsDecodedRequest : Obligations.StepRunsDecodedRequest := by
  intro s i hc hr hs hv hd
  obtain ⟨t, ht⟩ := exec_next i s
  have hedge : edge s = .next t := (edge_of_request hr hs hv).trans ((acceptRequest_of_decode hd).trans ht)
  exact ⟨t, ht, step_of_edge hc hedge⟩

/-- Settles O11: the edge keeps the state, and the step puts the next cycle's input levels in place. -/
theorem idleHolds : Obligations.IdleHolds := by
  intro s hc hr hs hv
  exact step_of_edge hc (edge_of_no_request hr hs hv)

end Sys2Proof.Machine
end

section
/-! The reference timing of whole steps and of runs (41_signal_driver.md R101). A cycle that is no extra one is a cycle of the
reference timing. The others are left out of a run, with their input levels. -/
namespace Sys2Proof.Machine

/-- The reference timing of a state in its own environment. -/
theorem reference_eq_retimed (s : State) : reference s = retimed s s.inp s.tape s.tick := rfl

/-- The input levels of the next cycle replace those of a retimed state. -/
theorem nextInputs_retimed_cons (s : State) (i j : Inputs) (tp : List Inputs) (n : Nat) :
    nextInputs (retimed s i (j :: tp) n) = retimed s j tp (n + 1) := rfl

theorem retimed_nextInputs (s : State) (i : Inputs) (tp : List Inputs) (n : Nat) :
    retimed (nextInputs s) i tp n = retimed s i tp n := rfl

/-- A step of a cycle that is no extra one is a step of the reference timing, whatever comes after its input levels. -/
theorem step_retimed {s t : State} (hx : extraCycle s = false) (h : step s = .next t) (tp : List Inputs) (n : Nat) :
    step (retimed s s.inp tp n) = .next (nextInputs (retimed t s.inp tp n)) := by
  obtain ⟨hc, u, hu, rfl⟩ := step_cases h
  rw [retimed_nextInputs]
  exact step_of_edge hc (edge_retimed s u tp n hu hx)

/-- A cycle that is no extra one samples in the reference timing exactly if it samples. -/
theorem sampling_retimed {s : State} (hx : extraCycle s = false) (i : Inputs) (tp : List Inputs) (n : Nat) :
    sampling (retimed s i tp n) = sampling s := by
  have hx' : extraCycle (retimed s i tp n) = false := extraCycle_of_reference nofun
  simp only [sampling, hx, hx']
  rfl

/-- Such a cycle has its own event in the reference timing. -/
theorem busEvent_retimed {s : State} (hx : extraCycle s = false) (t : State) (i : Inputs) (tp tp' : List Inputs)
    (n n' : Nat) : busEvent (retimed s s.inp tp n) (retimed t i tp' n') = busEvent s t := by
  simp only [busEvent, sampling_retimed hx]
  rfl

/-- Settles O55: the step and the event of the reference timing, in the state's own environment. -/
theorem otherCyclesAreReference : Obligations.OtherCyclesAreReference := by
  intro s t hx h
  refine ⟨?_, busEvent_retimed hx t _ _ _ _ _⟩
  obtain ⟨-, u, hu, rfl⟩ := step_cases h
  obtain ⟨hinp, htape, htick⟩ := edge_env s u hu
  have henv : nextInputs (retimed u s.inp s.tape s.tick) = reference (nextInputs u) := by
    rw [← hinp, ← htape, ← htick]
    rfl
  rw [← henv]
  exact step_retimed hx h s.tape s.tick

/-- An extra cycle has no event: the enable holds. -/
theorem busEvent_nextInputs (s : State) : busEvent s (nextInputs s) = none := by
  simp [busEvent]

/-- Settles O54: the edge of an extra cycle keeps the state. -/
theorem extraCycleHolds : Obligations.ExtraCycleHolds := by
  intro s cur rest hc hr hs hst hx
  have hextra : extraCycle s = true := extraCycle_iff.mpr ⟨hst, hx, hr, by simp [isIdle, hs]⟩
  exact ⟨nextInputs s, step_extra hc hextra, rfl, busEvent_nextInputs s⟩

/-! ## Runs -/

/-- A run of some cycles is its first cycle, and then the run of the others. -/
theorem runs_succ_iff {k n : Nat} {s t : State} {es : List (Nat × BusEvent)} :
    Runs k (n + 1) s es t ↔ ∃ u es', step s = .next u ∧ Runs (k + 1) n u es' t ∧
      es = ((busEvent s u).map fun e => (k + 1, e)).toList ++ es' := by
  constructor
  · intro h
    unfold Runs traceFrom at h
    split at h
    · rename_i u hu
      split at h
      · rename_i es' v hv
        cases h
        exact ⟨u, es', hu, hv, rfl⟩
      · cases h
    · cases h
    · cases h
  · rintro ⟨u, es', hu, hrun, rfl⟩
    rw [Nat.add_comm n 1]
    exact runs_append (runs_one hu) hrun

/-- The input levels of the present cycle and of the `n` cycles after it. -/
def levels (n : Nat) (s : State) : List Inputs := (List.range (n + 1)).map (inputAt s)

/-- One cycle later the first of them are gone. -/
theorem levels_step {s t : State} (h : step s = .next t) (n : Nat) : levels (n + 1) s = s.inp :: levels n t := by
  obtain ⟨-, u, hu, rfl⟩ := step_cases h
  obtain ⟨hinp, htape, htick⟩ := edge_env s u hu
  have hnext (j : Nat) : inputAt s (j + 1) = inputAt (nextInputs u) j := by
    rw [nextInputs_eq_later, inputAt_later, Nat.add_comm 1 j, inputAt_congr hinp htape htick]
  simp only [levels, List.range_succ_eq_map (n := n + 1), List.map_cons, List.map_map]
  exact congrArg _ (List.map_congr_left fun j _ => hnext j)

/-- The simulation: a run without its extra cycles is a run of the reference timing. Its cycle count
`k'` and tick `m` are free, because a cycle left out shifts both. -/
theorem runs_reference {n : Nat} : ∀ {k : Nat} {s t : State} {es : List (Nat × BusEvent)}, Runs k n s es t →
    ∀ k' m : Nat, ∃ i tape es' t', (i :: tape).Sublist (levels n s) ∧ Runs k' tape.length (retimed s i tape m) es' t' ∧
      es'.map Prod.snd = es.map Prod.snd ∧ t' = retimed t t'.inp t'.tape t'.tick := by
  induction n with
  | zero =>
    intro k s t es h k' m
    cases h
    exact ⟨s.inp, [], [], retimed s s.inp [] m, .refl _, runs_zero _ _, rfl, rfl⟩
  | succ n ih =>
    intro k s t es h k' m
    obtain ⟨u, es₁, hstep, hrun, rfl⟩ := runs_succ_iff.mp h
    rw [levels_step hstep]
    cases hx : extraCycle s with
    | true =>
      obtain rfl : nextInputs s = u := Host.Outcome.next.inj ((step_extra (step_cases hstep).1 hx).symm.trans hstep)
      obtain ⟨i, tape, es', t', hsub, hrun', hev, ht⟩ := ih hrun k' m
      refine ⟨i, tape, es', t', hsub.cons _, hrun', ?_, ht⟩
      rw [hev, busEvent_nextInputs]
      rfl
    | false =>
      obtain ⟨i, tape, es', t', hsub, hrun', hev, ht⟩ := ih hrun (k' + 1) (m + 1)
      have hstep' := step_retimed hx hstep (i :: tape) m
      rw [nextInputs_retimed_cons] at hstep'
      refine ⟨s.inp, i :: tape, _, t', hsub.cons_cons _, runs_succ_iff.mpr ⟨_, es', hstep', hrun', rfl⟩, ?_, ht⟩
      rw [busEvent_retimed hx, List.map_append, List.map_append, hev]
      cases busEvent s u <;> rfl

/-- Settles O56, by the simulation above, the run beginning in the present cycle. -/
theorem stretchedRunsHaveReferenceEvents : Obligations.StretchedRunsHaveReferenceEvents := by
  intro n s t es h
  exact runs_reference h 0 s.tick

end Sys2Proof.Machine
end

section
/-! The output registers in a cycle without a reset (41_signal_driver.md R109, R114): which of them each operation of an edge
can write. -/
namespace Sys2Proof.Safety
open Sys2Proof.Machine

theorem SameLines.refl (s : State) : SameLines s s := ⟨rfl, rfl, rfl, rfl⟩

theorem SameLines.trans {s t u : State} (h : SameLines s t) (h' : SameLines t u) : SameLines s u := by
  obtain ⟨hrs, hrw, hdb, hoe⟩ := h
  obtain ⟨hrs', hrw', hdb', hoe'⟩ := h'
  exact ⟨hrs'.trans hrs, hrw'.trans hrw, hdb'.trans hdb, hoe'.trans hoe⟩

/-- Beside its own register a one-cycle primitive leaves the outputs of `s` as they are (R102 to R107). -/
structure WritesOnly (op : LineOp) (s t : State) : Prop where
  eQ : t.eQ = s.eQ
  rsQ : (∀ v, op ≠ .setRs v) → t.rsQ = s.rsQ
  rwQ : (∀ v, op ≠ .setRw v) → t.rwQ = s.rwQ
  oeQ : (∀ d, op ≠ .setDir d) → t.oeQ = s.oeQ
  dbQ : (∀ b, op ≠ .put8 b ∧ op ≠ .putHi b ∧ op ≠ .putLo b) → t.dbQ = s.dbQ

/-- How the outputs get from `s` to `t`: they all hold, or `t` is in a cycle of a primitive that writes one (R114). -/
inductive OutputChange (s t : State) : Prop where
  | hold (lines : SameLines s t) (enable : t.eQ = s.eQ)
  | pulse (kind : PulseKind) (ph : PulsePhase) (rest : List Prim) (seq : t.seq = .run (.pulse kind ph) rest)
    (lines : SameLines s t)
  | line (op : LineOp) (rest : List Prim) (seq : t.seq = .run (.line op) rest) (writes : WritesOnly op s t)

theorem writesOnly_applyLine (op : LineOp) (s : State) : WritesOnly op s (applyLine op s) := by
  cases op <;> constructor <;> simp

theorem outputChange_enterPhase (kind : PulseKind) (ph : PulsePhase) (rest : List Prim) (s : State) :
    OutputChange s (enterPhase kind ph rest s) :=
  .pulse kind ph rest rfl (SameLines.refl s)

theorem outputChange_startPulse (kind : PulseKind) (rest : List Prim) (s : State) :
    OutputChange s (startPulse kind rest s) := by
  unfold startPulse
  split
  · exact outputChange_enterPhase kind .hi rest s
  · exact outputChange_enterPhase kind .su rest s

theorem outputChange_load (l : List Prim) (s : State) : OutputChange s (load l s) := by
  induction l with
  | nil => exact .hold (SameLines.refl s) rfl
  | cons p rest ih =>
    cases p with
    | line op =>
      obtain ⟨he, hrs, hrw, hoe, hdb⟩ := writesOnly_applyLine op s
      exact .line op rest rfl ⟨he, hrs, hrw, hoe, hdb⟩
    | wait k =>
      by_cases hk : delayCycles s.cfg k = 0
      · rw [load_wait_zero k rest s hk]
        exact ih
      · rw [load_wait_pos k rest s hk]
        exact .hold (SameLines.refl s) rfl
    | pulse => exact outputChange_startPulse .write rest s
    | pulseRd part => exact outputChange_startPulse (.read part) rest s
    | poll8 => exact outputChange_startPulse .poll8 rest s
    | poll4 => exact outputChange_startPulse .poll4Hi rest s

theorem outputChange_pollTest (again : PulseKind) (rest : List Prim) (s : State) :
    OutputChange s (pollTest again rest s) := by
  unfold pollTest
  split
  · exact outputChange_startPulse again rest s
  · exact outputChange_load rest s

theorem outputChange_endPulse (kind : PulseKind) (rest : List Prim) (s : State) :
    OutputChange s (endPulse kind rest s) := by
  cases kind with
  | write => exact outputChange_load rest s
  | read part => exact outputChange_load rest s
  | poll8 => exact outputChange_pollTest .poll8 rest s
  | poll4Hi => exact outputChange_startPulse .poll4Lo rest s
  | poll4Lo => exact outputChange_pollTest .poll4Hi rest s

/-- A sample is no write to an output. -/
theorem sameLines_takeSample (kind : PulseKind) (s : State) : SameLines s (takeSample kind s) :=
  ⟨takeSample_rsQ kind s, takeSample_rwQ kind s, takeSample_dbQ kind s, takeSample_oeQ kind s⟩

theorem outputChange_finish (cur : Cur) (rest : List Prim) (s : State) : OutputChange s (finish cur rest s) := by
  cases cur with
  | line op => exact outputChange_load rest s
  | wait k => exact outputChange_load rest s
  | pulse kind ph =>
    cases ph with
    | su => exact outputChange_enterPhase kind .hi rest s
    | hi => exact .pulse kind .eh rest rfl (sameLines_takeSample kind s)
    | eh => exact outputChange_endPulse kind rest s

theorem outputChange_advance (cur : Cur) (rest : List Prim) (s : State) : OutputChange s (advance cur rest s) := by
  unfold advance
  split
  · exact outputChange_finish cur rest s
  · exact .hold (SameLines.refl s) rfl

/-- An acceptance writes an output only through the first primitive it loads (R76). -/
theorem outputChange_acceptRequest {s t : State} (h : acceptRequest s = .next t) : OutputChange s t := by
  obtain ⟨c, -, rfl⟩ | ⟨i, -, -, ha⟩ := acceptRequest_cases h
  · exact .hold ⟨by simp, by simp, by simp, by simp⟩ (by simp)
  · obtain ⟨val, rsel, expansion, l, -, -, rfl⟩ := ha.loads
    obtain ⟨hl, he⟩ | ⟨kind, ph, rest, hs, hl⟩ | ⟨op, rest, hs, hw⟩ :=
      outputChange_load expansion { s with lineIdx := l, inited := true, valQ := val, rselQ := rsel }
    · exact .hold hl he
    · exact .pulse kind ph rest hs hl
    · exact .line op rest hs ⟨hw.eQ, hw.rsQ, hw.rwQ, hw.oeQ, hw.dbQ⟩

theorem outputChange_edge {s t : State} (hr : s.inp.rst = false) (h : edge s = .next t) : OutputChange s t := by
  obtain ⟨hrst, -⟩ | ⟨-, rfl⟩ | ⟨-, -, cur, rest, -, rfl⟩ | ⟨-, -, -, ha⟩ | ⟨-, -, -, rfl⟩ := edge_cases h
  · cases hrst.symm.trans hr
  · exact .hold (SameLines.refl _) rfl
  · exact outputChange_advance cur rest s
  · exact outputChange_acceptRequest ha
  · exact .hold (SameLines.refl _) rfl

/-- The input levels are no output. -/
theorem outputChange_step {s t : State} (hr : s.inp.rst = false) (h : step s = .next t) : OutputChange s t := by
  obtain ⟨-, u, hu, rfl⟩ := step_cases h
  obtain ⟨hl, he⟩ | ⟨kind, ph, rest, hs, hl⟩ | ⟨op, rest, hs, hw⟩ := outputChange_edge hr hu
  · exact .hold hl he
  · exact .pulse kind ph rest hs hl
  · exact .line op rest hs ⟨hw.eQ, hw.rsQ, hw.rwQ, hw.oeQ, hw.dbQ⟩

/-- Outputs that hold are outputs that no primitive but the current one wrote. -/
theorem writesOnly_of_hold (op : LineOp) {s t : State} (hl : SameLines s t) (he : t.eQ = s.eQ) : WritesOnly op s t := by
  obtain ⟨hrs, hrw, hdb, hoe⟩ := hl
  exact ⟨he, fun _ => hrs, fun _ => hrw, fun _ => hoe, fun _ => hdb⟩

theorem OutputChange.lines_of_pulse {s t : State} {kind : PulseKind} {ph : PulsePhase} {rest : List Prim}
    (h : OutputChange s t) (hs : t.seq = .run (.pulse kind ph) rest) : SameLines s t := by
  obtain ⟨hl, -⟩ | ⟨-, -, -, -, hl⟩ | ⟨op, rest', hs', -⟩ := h
  · exact hl
  · exact hl
  · cases hs.symm.trans hs'

theorem OutputChange.writes_of_line {s t : State} {op : LineOp} {rest : List Prim}
    (h : OutputChange s t) (hs : t.seq = .run (.line op) rest) : WritesOnly op s t := by
  obtain ⟨hl, he⟩ | ⟨kind, ph, rest', hs', -⟩ | ⟨op', rest', hs', hw⟩ := h
  · exact writesOnly_of_hold op hl he
  · cases hs.symm.trans hs'
  · cases hs.symm.trans hs'
    exact hw

theorem OutputChange.hold_of_quiet {s t : State} (h : OutputChange s t)
    (hs : t.seq = .idle ∨ ∃ k rest, t.seq = .run (.wait k) rest) : SameLines s t ∧ t.eQ = s.eQ := by
  obtain ⟨hl, he⟩ | ⟨kind, ph, rest, hs', -⟩ | ⟨op, rest, hs', -⟩ := h
  · exact ⟨hl, he⟩
  · simp [hs'] at hs
  · simp [hs'] at hs

/-- Settles O36, by where the sequencer is after the step: only in a pulse or in a one-cycle primitive can an output have
been written. -/
theorem outputsHold : Obligations.OutputsHold := by
  intro s t _ hr h
  have hc := outputChange_step hr h
  split
  · exact hc.hold_of_quiet (.inl ‹_›)
  · exact hc.hold_of_quiet (.inr ⟨_, _, ‹_›⟩)
  · exact hc.lines_of_pulse ‹_›
  · obtain ⟨he, hrs, hrw, hoe, hdb⟩ := hc.writes_of_line ‹_›
    exact ⟨he, hrs, hrw, hoe, hdb⟩

/-- The enable is 1 exactly in the high phase of a pulse (R109). -/
theorem enable_iff_hi {s : State} (h : StateOk s) : s.eQ = true ↔ ∃ kind rest, s.seq = .run (.pulse kind .hi) rest :=
  ⟨run_hi_of_enable h, fun ⟨_, _, hs⟩ => (highPhase_of_stateOk h hs).enable⟩

/-- Without a reset the high phase of a pulse goes on, or its hold phase follows (R108). -/
theorem step_from_hi {s t : State} {kind : PulseKind} {rest : List Prim} (hr : s.inp.rst = false)
    (hs : s.seq = .run (.pulse kind .hi) rest) (h : step s = .next t) : ∃ ph, t.seq = .run (.pulse kind ph) rest := by
  obtain ⟨-, u, hu, rfl⟩ := step_cases h
  rw [nextInputs_seq]
  obtain ⟨hrst, -⟩ | ⟨-, rfl⟩ | ⟨-, -, cur, rest', hs', rfl⟩ | ⟨-, hidle, -⟩ | ⟨-, hidle, -⟩ := edge_cases hu
  · cases hrst.symm.trans hr
  · exact ⟨.hi, hs⟩
  · cases hs.symm.trans hs'
    unfold advance
    split
    · exact ⟨.eh, rfl⟩
    · exact ⟨.hi, hs⟩
  · cases hidle.symm.trans hs
  · cases hidle.symm.trans hs

/-- Settles O35: with the enable at 1 before or after the step, the step leads to a cycle of a pulse, where only the enable is
written. -/
theorem linesHoldAroundPulse : Obligations.LinesHoldAroundPulse := by
  intro s t hok hr h
  have hc := outputChange_step hr h
  have hi := enable_iff_hi (stepKeepsStateOk s t hok h)
  refine ⟨hi, ?_, fun kind rest hs => hc.lines_of_pulse hs⟩
  rintro (he | he)
  · obtain ⟨kind, rest, hs⟩ := run_hi_of_enable hok he
    obtain ⟨ph, ht⟩ := step_from_hi hr hs h
    exact hc.lines_of_pulse ht
  · obtain ⟨kind, rest, ht⟩ := hi.mp he
    exact hc.lines_of_pulse ht

end Sys2Proof.Safety
end

section
/-! Inside a timed phase: the delay counter counts down and the outputs hold (41_signal_driver.md R108, R111, R115). -/
namespace Sys2Proof.Machine
open Sys2Proof.Safety

/-- The first `d` cycles of a phase: the counter goes down by `d`, and no register but the counter changes. -/
theorem runs_countdown {cur : Cur} {rest : List Prim} {k : Nat} {s : State} (hc : s.cfg.conforming = true)
    (hs : s.seq = .run cur rest) {d : Nat} : ∀ {e : Nat}, steady s d → s.dly = e + d →
    Runs k d s [] { later d s with dly := e } := by
  induction d with
  | zero =>
    rintro e - rfl
    exact runs_zero k s
  | succ d ih =>
    intro e hr hd
    have hfirst := ih (e := e + 1) (steady_split hr).1 (by omega)
    obtain ⟨hrst, hx⟩ := hr d (Nat.lt_succ_self d)
    have hstep : step { later d s with dly := e + 1 } = .next (nextInputs { later d s with dly := e }) :=
      step_run hc hrst (extraCycle_of_reference hx) hs
    have henv : nextInputs { later d s with dly := e } = { later (d + 1) s with dly := e } := by
      rw [← later_later d 1, ← nextInputs_eq_later]
      rfl
    rw [henv] at hstep
    refine runs_then hfirst (runs_one hstep) rfl ?_
    simp [busEvent]

/-- Cycle `j` of a phase of a pulse (R108). -/
theorem runs_inside_phase {kind : PulseKind} {ph : PulsePhase} {rest : List Prim} {k j : Nat} {s : State}
    (hc : s.cfg.conforming = true) (hr : steady s j) (hj : j < phaseCycles s.cfg ph) :
    ∃ t, Runs k j (enterPhase kind ph rest s) [] t ∧ t.eQ = (ph == .hi) ∧ SameLines s t :=
  ⟨_, runs_countdown (s := enterPhase kind ph rest s) (e := phaseCycles s.cfg ph - 1 - j) hc rfl
    (steady_congr rfl rfl rfl rfl hr) (by rw [enterPhase_dly]; omega), rfl, rfl, rfl, rfl, rfl⟩

theorem startPulse_of_ne_zero (kind : PulseKind) (rest : List Prim) {s : State} (h : s.cfg.nSu ≠ 0) :
    startPulse kind rest s = enterPhase kind .su rest s :=
  if_neg h

/-- A pulse comes to its high phase after N_SU cycles, with N_SU = 0 at once (R108). -/
theorem runs_startPulse_hi {kind : PulseKind} {rest : List Prim} {k : Nat} {s : State} (hc : s.cfg.conforming = true)
    (hr : steady s s.cfg.nSu) :
    Runs k s.cfg.nSu (startPulse kind rest s) [] (enterPhase kind .hi rest (later s.cfg.nSu s)) := by
  by_cases hsu : s.cfg.nSu = 0
  · rw [hsu, startPulse, if_pos hsu]
    exact runs_zero k _
  · rw [startPulse_of_ne_zero kind rest hsu]
    exact runs_su hc hsu hr

/-- The state from which a pulse that began in `s` enters its hold phase: the setup and high phases are over (R108, R110). -/
def afterHi (kind : PulseKind) (s : State) : State :=
  later 1 (takeSample kind (later (s.cfg.nSu + (s.cfg.nEpw - 1)) s))

@[simp] theorem afterHi_cfg (kind : PulseKind) (s : State) : (afterHi kind s).cfg = s.cfg := takeSample_cfg kind _

theorem afterHi_sameLines (kind : PulseKind) (s : State) : SameLines s (afterHi kind s) := by
  simp [SameLines, afterHi]

/-- N_SU + N_EPW cycles have gone by then. -/
theorem steady_afterHi (kind : PulseKind) {s : State} {j : Nat} (hc : s.cfg.conforming = true)
    (hr : steady s (s.cfg.nSu + s.cfg.nEpw + j)) : steady (afterHi kind s) j := by
  have hN := conforming_epw hc
  intro m hm
  have hsum : s.cfg.nSu + (s.cfg.nEpw - 1) + (1 + m) = s.cfg.nSu + s.cfg.nEpw + m := by omega
  have hinp : inputAt (afterHi kind s) m = inputAt s (s.cfg.nSu + s.cfg.nEpw + m) := by
    rw [afterHi, inputAt_later, inputAt_congr (takeSample_inp _ _) (takeSample_tape _ _) (takeSample_tick _ _),
      inputAt_later, hsum]
  rw [hinp, afterHi_cfg]
  exact hr _ (by omega)

/-- A pulse comes to its hold phase after N_SU + N_EPW cycles, with its event (R69, R108). -/
theorem runs_startPulse_eh {kind : PulseKind} {rest : List Prim} {k : Nat} {s : State} (hc : s.cfg.conforming = true)
    (hr : steady s (s.cfg.nSu + s.cfg.nEpw)) :
    ∃ es, Runs k (s.cfg.nSu + s.cfg.nEpw) (startPulse kind rest s) es (enterPhase kind .eh rest (afterHi kind s)) := by
  obtain ⟨hsu, hhi⟩ := steady_split hr
  have h := runs_append (runs_startPulse_hi (kind := kind) (rest := rest) (k := k) hc hsu)
    (runs_hi (s := later s.cfg.nSu s) hc hhi)
  rw [later_later] at h
  exact ⟨_, h⟩

/-- Settles O42: cycle `j` is a cycle of the setup, the high or the hold phase, and inside a phase only the counter moves. -/
theorem pulseWaveform : Obligations.PulseWaveform := by
  intro s kind rest j hc _ hr hj
  unfold pulseCycles at hj
  by_cases hsu : j < s.cfg.nSu
  · obtain ⟨t, hrun, ht, hl⟩ := runs_inside_phase (kind := kind) (ph := .su) (rest := rest) (k := 0) hc hr hsu
    rw [← startPulse_of_ne_zero _ _ (by omega)] at hrun
    exact ⟨_, t, hrun, by simp [ht]; omega, hl⟩
  by_cases hhi : j < s.cfg.nSu + s.cfg.nEpw
  · obtain ⟨i, rfl⟩ := Nat.exists_eq_add_of_le (Nat.not_lt.mp hsu)
    obtain ⟨hr₁, hr₂⟩ := steady_split hr
    obtain ⟨t, hrun, ht, hl⟩ := runs_inside_phase (kind := kind) (ph := .hi) (rest := rest) (k := 0 + s.cfg.nSu)
      (s := later s.cfg.nSu s) hc hr₂ (by simpa [phaseCycles] using hhi)
    exact ⟨_, t, runs_append (runs_startPulse_hi hc hr₁) hrun, by simp [ht]; omega, hl⟩
  · obtain ⟨i, rfl⟩ := Nat.exists_eq_add_of_le (Nat.not_lt.mp hhi)
    obtain ⟨es, hrun₁⟩ := runs_startPulse_eh (kind := kind) (rest := rest) (k := 0) hc (steady_split hr).1
    obtain ⟨t, hrun, ht, hl⟩ := runs_inside_phase (kind := kind) (ph := .eh) (rest := rest) (k := 0 + (s.cfg.nSu + s.cfg.nEpw))
      (s := afterHi kind s) (j := i) ((afterHi_cfg kind s).symm ▸ hc) (steady_afterHi kind hc hr)
      (by rw [afterHi_cfg, phaseCycles]; omega)
    exact ⟨_, t, runs_append hrun₁ hrun, by simp [ht], (afterHi_sameLines kind s).trans hl⟩

/-- Settles O43: inside the WAIT only the counter moves, and `runs_wait` is the whole of it. -/
theorem waitCountsDown : Obligations.WaitCountsDown := by
  intro s k rest hc he hr
  refine ⟨fun j hj => ?_, runs_wait hc he hr⟩
  have hrun : Runs 0 j _ [] _ :=
    runs_countdown (k := 0) (s := { s with seq := .run (.wait k) rest, dly := delayCycles s.cfg k - 1 })
      (e := delayCycles s.cfg k - 1 - j) hc rfl (steady_congr rfl rfl rfl rfl fun i hi => hr i (hi.trans hj))
      (by show delayCycles s.cfg k - 1 = _; omega)
  rw [load_wait_pos k rest s (by omega)]
  exact ⟨_, hrun, rfl, rfl, he, SameLines.refl s⟩

/-- Settles O41: the counter is 0 in the primitive's one cycle, so what is behind it is loaded at its end. -/
theorem linePrimitiveTakesOneCycle : Obligations.LinePrimitiveTakesOneCycle := by
  rintro s t op rest hc hr rfl
  have hfirst : steady (load (.line op :: rest) s) 1 := steady_congr (by simp) (by simp) (by simp) (by simp) hr
  obtain ⟨hrst, hx⟩ := hfirst 0 Nat.one_pos
  rw [step_run (by simpa using hc) hrst (extraCycle_of_reference hx) rfl]
  show Host.Outcome.next (nextInputs (load rest (load (.line op :: rest) s))) = _
  simp [nextInputs]

end Sys2Proof.Machine
end

section
/-! The sample of a read pulse (41_signal_driver.md R110, R112): which cycle takes it, and what of `lcd_db_i` it looks at. -/
namespace Sys2Proof.Safety
open Sys2Proof.Machine

theorem takeSample_of_none {kind : PulseKind} (h : samplePart kind = none) (s : State) : takeSample kind s = s := by
  simp [takeSample, h]

theorem takeSample_of_some {kind : PulseKind} {part : Part} (h : samplePart kind = some part) (s : State) :
    takeSample kind s = { s with statQ := sampleInto part s.statQ s.inp.lcdDbI } := by
  simp [takeSample, h]

/-- The last high cycle of a pulse, if it is no extra one, takes every sample there is to take. -/
theorem samplePart_of_not_sampling {s : State} {kind : PulseKind} {rest : List Prim}
    (hs : s.seq = .run (.pulse kind .hi) rest) (hd : s.dly = 0) (hx : extraCycle s = false) (h : sampling s = false) :
    samplePart kind = none := by
  simpa [sampling_of_hi hs, hd, hx] using h

/-- A sampling cycle is a cycle of the high phase of a read pulse. -/
theorem hi_of_sampling {s : State} (h : sampling s = true) :
    ∃ kind rest, s.seq = .run (.pulse kind .hi) rest ∧ (samplePart kind).isSome = true := by
  unfold sampling at h
  split at h
  · rename_i kind rest hs
    simp only [Bool.and_eq_true] at h
    exact ⟨kind, rest, hs, h.1.2⟩
  · cases h

/-! ## The status register -/

@[simp] theorem pollTest_statQ (again : PulseKind) (rest : List Prim) (s : State) :
    (pollTest again rest s).statQ = s.statQ := by
  unfold pollTest
  split
  · exact startPulse_statQ again rest s
  · exact load_statQ rest s

@[simp] theorem endPulse_statQ (kind : PulseKind) (rest : List Prim) (s : State) :
    (endPulse kind rest s).statQ = s.statQ := by
  cases kind <;> simp [endPulse]

/-- Only the end of a high phase writes the status register, by its sample. -/
theorem finish_statQ {cur : Cur} {s : State} (rest : List Prim)
    (h : ∀ kind, cur = .pulse kind .hi → samplePart kind = none) : (finish cur rest s).statQ = s.statQ := by
  cases cur with
  | line op => exact load_statQ rest s
  | wait k => exact load_statQ rest s
  | pulse kind ph =>
    cases ph with
    | su => rfl
    | hi => rw [finish, enterPhase_statQ, takeSample_of_none (h kind rfl)]
    | eh => exact endPulse_statQ kind rest s

theorem advance_statQ_of_not_sampling {s : State} {cur : Cur} {rest : List Prim} (hs : s.seq = .run cur rest)
    (hx : extraCycle s = false) (h : sampling s = false) : (advance cur rest s).statQ = s.statQ := by
  unfold advance
  split
  · rename_i hd
    refine finish_statQ rest ?_
    rintro kind rfl
    exact samplePart_of_not_sampling hs hd hx h
  · rfl

theorem acceptRequest_keeps_statQ {s t : State} (h : acceptRequest s = .next t) : t.statQ = s.statQ := by
  obtain ⟨c, -, rfl⟩ | ⟨i, -, -, ha⟩ := acceptRequest_cases h
  · exact illegalRequest_statQ c s
  · obtain ⟨val, rsel, expansion, l, -, -, rfl⟩ := ha.loads
    exact load_statQ expansion _

theorem edge_statQ_of_not_sampling {s t : State} (hr : s.inp.rst = false) (h : sampling s = false)
    (he : edge s = .next t) : t.statQ = s.statQ := by
  obtain ⟨hrst, -⟩ | ⟨-, rfl⟩ | ⟨-, hx, cur, rest, hs, rfl⟩ | ⟨-, -, -, ha⟩ | ⟨-, -, -, rfl⟩ := edge_cases he
  · cases hrst.symm.trans hr
  · rfl
  · exact advance_statQ_of_not_sampling hs hx h
  · exact acceptRequest_keeps_statQ ha
  · rfl

/-- Settles O46: of what an edge can do only the end of a high phase writes the status register, and it writes the sample. -/
theorem statusTakesTheSample : Obligations.StatusTakesTheSample := by
  intro s t hr h
  refine ⟨fun hn => ?_, fun kind rest part hs hd hx hp => ?_⟩
  · obtain ⟨-, u, hu, rfl⟩ := step_cases h
    exact (nextInputs_statQ u).trans (edge_statQ_of_not_sampling hr hn hu)
  · have hc := (step_cases h).1
    obtain rfl := Host.Outcome.next.inj ((step_run hc hr hx hs).symm.trans h)
    have hstat : (advance (.pulse kind .hi) rest s).statQ = sampleInto part s.statQ s.inp.lcdDbI := by
      simp [advance, hd, finish, takeSample_of_some hp]
    rw [nextInputs_statQ, hstat]
    cases part <;> rfl

/-! ## The display's answer -/

theorem illegalRequest_withInp (c : Cause) (s : State) (i : Inputs) :
    illegalRequest c { s with inp := i } = { illegalRequest c s with inp := i } := by
  unfold illegalRequest recordError
  split <;> rfl

theorem accept_withInp (val : Byte) (rsel : Bool) (expansion : List Prim) (s : State) (i : Inputs) :
    accept val rsel expansion { s with inp := i } = { accept val rsel expansion s with inp := i } :=
  load_withInp expansion { s with valQ := val, rselQ := rsel } i

theorem whenInited_withInp {s e e' : State} {i : Inputs} (h : e' = { e with inp := i }) :
    whenInited { s with inp := i } e' = { whenInited s e with inp := i } := by
  subst h
  unfold whenInited
  split
  · rfl
  · exact illegalRequest_withInp .noInit s i

/-- A request's meaning looks at no input port. -/
theorem exec_withInp (r : Instr) (s : State) (i : Inputs) :
    ∃ t, exec r s = .next t ∧ exec r { s with inp := i } = .next { t with inp := i } := by
  cases r with
  | init =>
    refine ⟨_, rfl, congrArg Host.Outcome.next ?_⟩
    split
    · exact illegalRequest_withInp .reInit s i
    · exact accept_withInp _ _ _ { s with inited := true, lineIdx := 0 } i
  | cmd b => exact ⟨_, rfl, congrArg _ (whenInited_withInp (accept_withInp _ _ _ s i))⟩
  | data b => exact ⟨_, rfl, congrArg _ (whenInited_withInp (accept_withInp _ _ _ s i))⟩
  | clear => exact ⟨_, rfl, congrArg _ (whenInited_withInp (accept_withInp _ _ _ { s with lineIdx := 0 } i))⟩
  | home => exact ⟨_, rfl, congrArg _ (whenInited_withInp (accept_withInp _ _ _ { s with lineIdx := 0 } i))⟩
  | goto x y =>
    refine ⟨_, rfl, congrArg _ (whenInited_withInp ?_)⟩
    split
    · exact illegalRequest_withInp .lineRange s i
    · exact accept_withInp _ _ _ s i
  | putc c =>
    refine ⟨_, rfl, congrArg _ (whenInited_withInp ?_)⟩
    split
    · exact accept_withInp _ _ _ { s with lineIdx := 0 } i
    split
    · exact accept_withInp _ _ _ { s with lineIdx := nextLine s.cfg s.lineIdx } i
    · exact accept_withInp _ _ _ s i

/-- The acceptance edge looks at no input port but the word. -/
theorem acceptRequest_withInp {s : State} {i : Inputs} (hw : i.reqWord = s.inp.reqWord) :
    ∃ t, acceptRequest s = .next t ∧ acceptRequest { s with inp := i } = .next { t with inp := i } := by
  unfold acceptRequest
  dsimp only
  rw [hw]
  split
  · exact exec_withInp _ s i
  · exact ⟨_, rfl, congrArg _ (illegalRequest_withInp _ s i)⟩

/-- A reset leaves nothing of the state before it but the build (R250). -/
theorem step_reset {s : State} (hc : s.cfg.conforming = true) (hr : s.inp.rst = true) :
    step s = .next (nextInputs (resetEdge s)) :=
  step_of_edge hc (by simp [edge, hr])

/-- A step in IDLE without a reset looks at the request port only. -/
theorem step_withInp_of_idle {s : State} {i : Inputs} (hc : s.cfg.conforming = true) (hs : s.seq = .idle)
    (hr : s.inp.rst = false) (hir : i.rst = false) (hv : i.reqValid = s.inp.reqValid) (hw : i.reqWord = s.inp.reqWord) :
    step { s with inp := i } = step s := by
  have hc' : ({ s with inp := i } : State).cfg.conforming = true := hc
  cases hreq : s.inp.reqValid with
  | false =>
    rw [step_of_edge hc (edge_of_no_request hr hs hreq), step_of_edge hc' (edge_of_no_request hir hs (hv.trans hreq)),
      nextInputs_withInp]
  | true =>
    obtain ⟨t, ht, hti⟩ := acceptRequest_withInp hw
    have hedge : edge s = .next t := (edge_of_request hr hs hreq).trans ht
    have hedge' : edge { s with inp := i } = .next { t with inp := i } :=
      (edge_of_request (s := { s with inp := i }) hir hs (hv.trans hreq)).trans hti
    rw [step_of_edge hc hedge, step_of_edge hc' hedge', nextInputs_withInp]

theorem idle_or_run (s : State) : s.seq = .idle ∨ ∃ cur rest, s.seq = .run cur rest := by
  cases s.seq with
  | idle => exact .inl rfl
  | run cur rest => exact .inr ⟨cur, rest, rfl⟩

/-- A step looks at `lcd_db_i` only for a sample, in the last cycle of a high phase that is no extra cycle. -/
theorem step_withInp {s : State} {i : Inputs} (hr : i.rst = s.inp.rst) (hv : i.reqValid = s.inp.reqValid)
    (hw : i.reqWord = s.inp.reqWord) (hx : i.extra = s.inp.extra)
    (h : ∀ kind rest, s.seq = .run (.pulse kind .hi) rest → s.dly = 0 → extraCycle s = false →
      takeSample kind { s with inp := i } = { takeSample kind s with inp := i }) :
    step { s with inp := i } = step s := by
  cases hc : s.cfg.conforming with
  | false => simp [step, clock, hc]
  | true =>
    cases hrst : s.inp.rst with
    | true =>
      rw [step_reset hc hrst, step_reset (s := { s with inp := i }) hc (hr.trans hrst)]
      rfl
    | false =>
      obtain hs | ⟨cur, rest, hs⟩ := idle_or_run s
      · exact step_withInp_of_idle hc hs hrst (hr.trans hrst) hv hw
      cases hxs : extraCycle s with
      | true =>
        rw [step_extra hc hxs, step_extra (s := { s with inp := i }) hc ((extraCycle_withInp hr hx).trans hxs),
          nextInputs_withInp]
      | false =>
        refine step_withInp_of_run hs hrst (hr.trans hrst) hx ?_
        rintro hd kind rfl
        exact h kind rest hs hd hxs

/-- In a 4-bit build a sample looks at DB7..DB4 only (R110, R117). -/
theorem takeSample_withInp_of_hiNibble {kind : PulseKind} {s : State} {i : Inputs} (hk : kindIn s.cfg kind = true)
    (hw : s.cfg.width = .four) (hd : hiNibble i.lcdDbI = hiNibble s.inp.lcdDbI) :
    takeSample kind { s with inp := i } = { takeSample kind s with inp := i } := by
  cases hp : samplePart kind with
  | none => rw [takeSample_of_none hp, takeSample_of_none hp]
  | some part =>
    have hsample : sampleInto part s.statQ i.lcdDbI = sampleInto part s.statQ s.inp.lcdDbI := by
      cases part with
      | full => cases kind <;> simp_all [samplePart, kindIn, primIn]
      | hi => rw [sampleInto_hi, sampleInto_hi, hd]
      | lo => rw [sampleInto_lo, sampleInto_lo, hd]
    rw [takeSample_of_some hp, takeSample_of_some hp, hsample]

/-- Settles O14: the step depends on the display's answer only through the sample, which a cycle that does not sample does
not take, a 4-bit build takes of the high half, and no pulse of a TIMED build takes. -/
theorem displayIgnoredOutsideSampling : Obligations.DisplayIgnoredOutsideSampling := by
  intro s d
  refine ⟨fun hn => step_withInp rfl rfl rfl rfl fun kind rest hs hd hx => ?_,
    fun hok hw hnib => step_withInp rfl rfl rfl rfl fun kind rest hs _ _ => ?_, fun hok ht => ?_⟩
  · have hp := samplePart_of_not_sampling hs hd hx hn
    rw [takeSample_of_none hp, takeSample_of_none hp]
  · obtain ⟨-, -, hk, -⟩ := (seqOk_run_iff hs).mp hok.seq
    exact takeSample_withInp_of_hiNibble hk hw hnib
  · refine Bool.eq_false_of_not_eq_true fun hsamp => ?_
    obtain ⟨kind, rest, hs, hp⟩ := hi_of_sampling hsamp
    cases ht.symm.trans ((highPhase_of_stateOk hok hs).polled hp)

end Sys2Proof.Safety
end

section
/-! Which builds step (41_signal_driver.md R116), and the nibbles the one-cycle primitives put on DB7..DB4 (R102 to R107;
20_memory.md R54, R55). -/
namespace Sys2Proof.Machine

/-- Settles O15: refusing is all a build that does not conform does, and every edge of one that does answers. -/
theorem onlyNonConformingBuildsStop : Obligations.OnlyNonConformingBuildsStop :=
  fun s => ⟨fun hc => by simp [step, clock, hc], step_next⟩

theorem hiNibble_getLsbD {i : Nat} (hi : i < 4) (v : Byte) : (hiNibble v).getLsbD i = v.getLsbD (4 + i) := by
  simp [hiNibble, hi]

theorem loNibble_getLsbD {i : Nat} (hi : i < 4) (v : Byte) : (loNibble v).getLsbD i = v.getLsbD i := by
  simp [loNibble, hi]

/-- Bit `i` of a nibble put on DB7..DB4 stands on bit `4 + i` (R54). -/
theorem setHi_getLsbD_add_four {i : Nat} (hi : i < 4) (r : Byte) (n : Nibble) :
    (setHi r n).getLsbD (4 + i) = n.getLsbD i := by
  rw [← hiNibble_getLsbD hi, hiNibble_setHi]

/-- DB3..DB0 stay as they are. -/
theorem setHi_getLsbD_of_lt {i : Nat} (hi : i < 4) (r : Byte) (n : Nibble) : (setHi r n).getLsbD i = r.getLsbD i := by
  rw [← loNibble_getLsbD hi, Safety.loNibble_setHi, loNibble_getLsbD hi]

/-- Settles O40: the writes of R102 to R107, and where PUTHI and PUTLO put the bits of a nibble. -/
theorem linePrimitives : Obligations.LinePrimitives := by
  intro s rest
  refine ⟨fun v => rfl, rfl, fun v => rfl, rfl, rfl, rfl, fun b => rfl, fun b i hi => ⟨?_, ?_, ?_, ?_⟩⟩
  · exact (setHi_getLsbD_add_four hi s.dbQ (hiNibble b)).trans (hiNibble_getLsbD hi b)
  · exact (setHi_getLsbD_add_four hi s.dbQ (loNibble b)).trans (loNibble_getLsbD hi b)
  · exact setHi_getLsbD_of_lt hi s.dbQ (hiNibble b)
  · exact setHi_getLsbD_of_lt hi s.dbQ (loNibble b)

end Sys2Proof.Machine
end

section
/-! What a stretch of an expansion does in a run: its cycles, its bus events and the registers it leaves. Stretches are put
together by `Takes.append`, as the expansions are put together of their primitives. -/
namespace Sys2Proof.Machine
open Sys2Proof.Safety

/-- `t` agrees with `s` in the build, the enable and what drives the ports. -/
structure SameFrame (s t : State) : Prop where
  cfg : t.cfg = s.cfg
  eQ : t.eQ = s.eQ
  inp : t.inp = s.inp
  tape : t.tape = s.tape
  tick : t.tick = s.tick

theorem SameFrame.trans {s t u : State} (h : SameFrame s t) (h' : SameFrame t u) : SameFrame s u :=
  ⟨h'.cfg.trans h.cfg, h'.eQ.trans h.eQ, h'.inp.trans h.inp, h'.tape.trans h.tape, h'.tick.trans h.tick⟩

theorem SameFrame.steady_later {s t : State} (h : SameFrame s t) {k n : Nat} (hr : steady (later k s) n) :
    steady (later k t) n :=
  steady_congr (s := later k s) (t := later k t) h.cfg (inputAt_congr h.inp h.tape h.tick k)
    (congrArg (List.drop k) h.tape) (congrArg (· + k) h.tick) hr

/-- The primitives `l`, begun in cycle `k` of a run with the registers of `s`, take `n` cycles, record `es` and leave the
registers of `t`, whatever comes after them. Both states have the input levels of cycle 0. -/
structure Takes (l : List Prim) (k n : Nat) (s : State) (es : List (Nat × BusEvent)) (t : State) : Prop where
  frame : SameFrame s t
  runs : s.cfg.conforming = true → s.eQ = false → steady (later k s) n →
    ∀ rest, Runs k n (load (l ++ rest) (later k s)) es (load rest (later (k + n) t))

theorem Takes.append {l l' : List Prim} {k n n' : Nat} {s t u : State} {es es' : List (Nat × BusEvent)}
    (h : Takes l k n s es t) (h' : Takes l' (k + n) n' t es' u) : Takes (l ++ l') k (n + n') s (es ++ es') u := by
  refine ⟨h.frame.trans h'.frame, fun hc he hr rest => ?_⟩
  obtain ⟨hr₁, hr₂⟩ := steady_split hr
  rw [later_later] at hr₂
  have hrun := h'.runs (h.frame.cfg ▸ hc) (h.frame.eQ.trans he) (h.frame.steady_later hr₂) rest
  rw [Nat.add_assoc] at hrun
  rw [List.append_assoc]
  exact runs_append (h.runs hc he hr₁ _) hrun

/-- The same stretch, with its list, cycles and events written in another way. -/
theorem Takes.congr {l l' : List Prim} {k n n' : Nat} {s t t' : State} {es es' : List (Nat × BusEvent)}
    (h : Takes l k n s es t) (hl : l' = l) (hn : n' = n) (he : es' = es) (ht : t' = t) : Takes l' k n' s es' t' := by
  subst hl hn he ht
  exact h

/-- After the last primitive the block is IDLE (R101, R115). -/
theorem Takes.toIdle {l : List Prim} {k n : Nat} {s t : State} {es : List (Nat × BusEvent)} (h : Takes l k n s es t)
    (hc : s.cfg.conforming = true) (he : s.eQ = false) (hr : steady (later k s) n) :
    Runs k n (load l (later k s)) es { later (k + n) t with seq := .idle, dly := 0 } := by
  simpa [load] using h.runs hc he hr []

theorem takes_line (op : LineOp) (k : Nat) (s : State) : Takes [.line op] k 1 s [] (applyLine op s) := by
  refine ⟨⟨by simp, by simp, by simp, by simp, by simp⟩, fun hc he hr rest => ?_⟩
  have h := runs_line (op := op) (rest := rest) (k := k) (s := later k s) hc he hr
  rwa [applyLine_later, later_later] at h

theorem takes_wait (d : Delay) (k : Nat) (s : State) : Takes [.wait d] k (delayCycles s.cfg d) s [] s := by
  refine ⟨⟨rfl, rfl, rfl, rfl, rfl⟩, fun hc he hr rest => ?_⟩
  have h := runs_wait (d := d) (rest := rest) (k := k) (s := later k s) hc he hr
  rwa [later_later] at h

/-- The hold phase ends N_P cycles after the pulse began. -/
theorem phases_eq_pulseCycles {c : Config} (hc : c.conforming = true) :
    c.nSu + (c.nEpw - 1) + (c.nEh + 1) = pulseCycles c := by
  have hN := conforming_epw hc
  unfold pulseCycles
  omega

/-- A write pulse changes no register. -/
theorem afterPulse_write {s : State} (hc : s.cfg.conforming = true) (k : Nat) :
    afterPulse .write (later k s) = later (k + pulseCycles s.cfg) s := by
  rw [afterPulse, takeSample_of_none rfl, later_later, later_later, later_cfg, phases_eq_pulseCycles hc]

/-- A write pulse: its one event, and no register changed (R69, R108). -/
theorem takes_pulse (k : Nat) {s : State} (hw : s.rwQ = false) :
    Takes [.pulse] k (pulseCycles s.cfg) s [(k + s.cfg.nSu + s.cfg.nEpw, .write s.rsQ (busData s))] s := by
  refine ⟨⟨rfl, rfl, rfl, rfl, rfl⟩, fun hc he hr rest => ?_⟩
  have h := runs_pulse (kind := .write) (rest := rest) (k := k) (s := later k s) hc he hr
  have hev : fallEvent (later (s.cfg.nSu + (s.cfg.nEpw - 1)) (later k s)) = .write s.rsQ (busData s) := by
    simp [fallEvent, hw, busData]
  rw [afterPulse_write hc] at h
  rwa [later_cfg, hev] at h

end Sys2Proof.Machine
end

section
/-! The bytes a request writes (42_byte_transfer.md R140 to R145). -/
namespace Sys2Proof.Machine
open Sys2Proof.Safety

/-- The part of WriteByte that puts the byte on the bus: what the four variants have in common but for the width (R140 to
R143). -/
def sendByte (c : Config) (b : ByteSrc) (r : BitSrc) : List Prim :=
  match c.width with
  | .eight => [.line (.setRs r), .line (.put8 b), .pulse]
  | .four => [.line (.setRs r), .line (.putHi b), .pulse, .line (.putLo b), .pulse]

/-- The cycles of that part. -/
def sendByteCycles (c : Config) : Nat :=
  match c.width with
  | .eight => 2 + pulseCycles c
  | .four => 3 + 2 * pulseCycles c

/-- The registers after a byte has been sent. -/
def afterSend (b : ByteSrc) (r : BitSrc) (s : State) : State :=
  { s with rsQ := bitOf s r, dbQ := busAfter s.cfg (byteOf s b) }

/-- A new high half replaces the old one. -/
theorem setHi_setHi (r : Byte) (m n : Nibble) : setHi (setHi r m) n = setHi r n := by
  rw [setHi, loNibble_setHi, setHi]

/-- The byte to be sent does not depend on the lines. -/
@[simp] theorem byteOf_applyLine (op : LineOp) (s : State) (b : ByteSrc) : byteOf (applyLine op s) b = byteOf s b := by
  cases b with
  | const v => rfl
  | val => exact applyLine_valQ op s

/-- SETRS and PUT8 leave the byte on the lines (R102, R105). -/
theorem afterSend_of_eight (b : ByteSrc) (r : BitSrc) {s : State} (hw : s.cfg.width = .eight) :
    afterSend b r s = applyLine (.put8 b) (applyLine (.setRs r) s) := by
  cases b <;> simp [afterSend, busAfter, hw, applyLine, byteOf]

/-- SETRS, PUTHI and PUTLO leave the low half on DB7..DB4 and 0 below it (R106, R107). -/
theorem afterSend_of_four (b : ByteSrc) (r : BitSrc) {s : State} (hw : s.cfg.width = .four) (hlow : loNibble s.dbQ = 0) :
    afterSend b r s = applyLine (.putLo b) (applyLine (.putHi b) (applyLine (.setRs r) s)) := by
  have hdb (v : Byte) : busAfter s.cfg v = setHi s.dbQ (loNibble v) := by
    simp [busAfter, hw, setHi, hlow]
  cases b <;> simp [afterSend, hdb, applyLine, byteOf, setHi_setHi]

theorem takes_sendByte (b : ByteSrc) (r : BitSrc) (k : Nat) {s : State} (hw : s.rwQ = false)
    (hlow : s.cfg.width = .four → loNibble s.dbQ = 0) :
    Takes (sendByte s.cfg b r) k (sendByteCycles s.cfg) s (writeEvents s.cfg (k + 2) (bitOf s r) (byteOf s b))
      (afterSend b r s) := by
  have hfirst (op : LineOp) := (takes_line (.setRs r) k s).append (takes_line op _ _)
  cases hwidth : s.cfg.width with
  | eight =>
    refine ((hfirst (.put8 b)).append (takes_pulse _ (by simpa using hw))).congr ?_ ?_ ?_ (afterSend_of_eight b r hwidth)
    · simp [sendByte, hwidth]
    · simp [sendByteCycles, hwidth]
    · simp [writeEvents, hwidth, busData]
  | four =>
    have hhigh := (hfirst (.putHi b)).append (takes_pulse _ (by simpa using hw))
    refine ((hhigh.append (takes_line (.putLo b) _ _)).append (takes_pulse _ (by simpa using hw))).congr ?_ ?_ ?_
      (afterSend_of_four b r hwidth (hlow hwidth))
    · simp [sendByte, hwidth]
    · simp [sendByteCycles, hwidth]
      omega
    · simp [writeEvents, hwidth, busData]
      omega

/-- `WriteByte` in a TIMED build (R140, R142): the byte, and then the wait. -/
theorem takes_writeByte_timed (b : ByteSrc) (r : BitSrc) (k : Nat) {s : State} (ht : s.cfg.busy = .timed)
    (hw : s.rwQ = false) (hlow : s.cfg.width = .four → loNibble s.dbQ = 0) :
    Takes (writeByte s.cfg b r) k (writeByteCycles s.cfg 1) s (writeEvents s.cfg (k + 2) (bitOf s r) (byteOf s b))
      (afterSend b r s) := by
  refine ((takes_sendByte b r k hw hlow).append (takes_wait .byte _ _)).congr ?_ ?_ (List.append_nil _).symm rfl
  · cases hwidth : s.cfg.width <;> simp [writeByte, sendByte, writeT8, writeT4, hwidth, ht]
  · cases hwidth : s.cfg.width <;> simp [writeByteCycles, sendByteCycles, afterSend, delayCycles, hwidth, ht]

end Sys2Proof.Machine
end

section
/-! A poll (42_byte_transfer.md R131 to R135): the samples it takes, and what the display's answers make of them. -/
namespace Sys2Proof.Machine
open Sys2Proof.Safety

/-! ## The display's answers -/

theorem answer_add (s : State) (k m j : Nat) : answer s (k + m * pulseCycles s.cfg) j = answer s k (m + j) := by
  unfold answer
  rw [Nat.add_mul, Nat.add_assoc k]

theorem readEvents_one (s : State) (k : Nat) :
    readEvents s k 1 = [(k + s.cfg.nSu + s.cfg.nEpw, .read false (answer s k 0))] := by
  simp [readEvents]

theorem readEvents_add (s : State) (k m n : Nat) :
    readEvents s k (m + n) = readEvents s k m ++ readEvents s (k + m * pulseCycles s.cfg) n := by
  simp only [readEvents, List.range_add, List.map_append, List.map_map, answer_add]
  refine congrArg _ (List.map_congr_left fun j _ => ?_)
  simp only [Function.comp_apply, Nat.add_mul, Nat.add_assoc]

/-- The cycles of one sample (R133, R134). -/
def sampleCycles (c : Config) : Nat := pulsesPerSample c * pulseCycles c

theorem sampleCycles_of_eight {c : Config} (hw : c.width = .eight) : sampleCycles c = pulseCycles c := by
  simp [sampleCycles, pulsesPerSample, hw]

theorem sampleCycles_of_four {c : Config} (hw : c.width = .four) : sampleCycles c = 2 * pulseCycles c := by
  simp [sampleCycles, pulsesPerSample, hw]

/-- Counted from the second sample on, the samples are one fewer. -/
theorem sampledStatus_next (s : State) (k j : Nat) :
    sampledStatus s (k + sampleCycles s.cfg) j = sampledStatus s k (j + 1) := by
  cases hw : s.cfg.width with
  | eight =>
    have hnext := answer_add s k 1 j
    rw [Nat.one_mul, Nat.add_comm 1] at hnext
    simp only [sampledStatus, hw, sampleCycles_of_eight hw, hnext]
  | four =>
    simp only [sampledStatus, hw, sampleCycles_of_four hw, answer_add, Nat.mul_add, Nat.add_comm 2, Nat.add_right_comm _ 1]

/-! ## One sample -/

/-- The state in which a poll samples: the enable is 0 and the bus is turned to read the status (R135). -/
structure Reading (s : State) : Prop where
  conforming : s.cfg.conforming = true
  eQ : s.eQ = false
  rsQ : s.rsQ = false
  rwQ : s.rwQ = true

/-- The status register with a new value, and every other register as it was. -/
def withStatus (v : Byte) (s : State) : State := { s with statQ := v }

theorem Reading.withStatus {s : State} (h : Reading s) (v : Byte) : Reading (withStatus v s) :=
  ⟨h.conforming, h.eQ, h.rsQ, h.rwQ⟩

theorem Reading.later {s : State} (h : Reading s) (n : Nat) : Reading (later n s) :=
  ⟨h.conforming, h.eQ, h.rsQ, h.rwQ⟩

/-- The event of a read pulse (R69). -/
theorem Reading.fallEvent_later {s : State} (h : Reading s) (n : Nat) :
    fallEvent (Machine.later n s) = .read false (inputAt s n).lcdDbI := by
  simp [fallEvent, h.rsQ, h.rwQ]

theorem withStatus_later (v : Byte) (n : Nat) (s : State) : withStatus v (later n s) = later n (withStatus v s) := rfl

/-- A read pulse leaves its part of the answer in the status register (R110, R112). -/
theorem afterPulse_read {kind : PulseKind} {part : Part} {s : State} (hp : samplePart kind = some part)
    (hc : s.cfg.conforming = true) (k : Nat) :
    afterPulse kind (later k s) =
      later (k + pulseCycles s.cfg) (withStatus (sampleInto part s.statQ (answer s k 0)) s) := by
  have hanswer : (inputAt s (k + (s.cfg.nSu + (s.cfg.nEpw - 1)))).lcdDbI = answer s k 0 := by simp [answer]
  rw [← phases_eq_pulseCycles hc, ← hanswer, ← Nat.add_assoc k, ← later_later, ← withStatus_later, afterPulse,
    takeSample_of_some hp, later_later]
  rfl

/-- A read pulse, with its event and its part of the sample (R69, R110). -/
theorem runs_readPulse {kind : PulseKind} {part : Part} {rest : List Prim} {k : Nat} {s : State}
    (hp : samplePart kind = some part) (h : Reading s) (hr : steady (later k s) (pulseCycles s.cfg)) :
    Runs k (pulseCycles s.cfg) (startPulse kind rest (later k s)) (readEvents s k 1)
      (endPulse kind rest
        (later (k + pulseCycles s.cfg) (withStatus (sampleInto part s.statQ (answer s k 0)) s))) := by
  have hrun := runs_pulse (kind := kind) (rest := rest) (k := k) (s := later k s) h.conforming h.eQ hr
  have hev : fallEvent (later (s.cfg.nSu + (s.cfg.nEpw - 1)) (later k s)) = .read false (answer s k 0) := by
    rw [later_later, h.fallEvent_later]
    simp [answer]
  rw [afterPulse_read hp h.conforming] at hrun
  rwa [later_cfg, hev, ← readEvents_one] at hrun

theorem pollKind_of_four {c : Config} (hw : c.width = .four) : pollKind c = .poll4Hi := by
  simp [pollKind, hw]

/-- A sample ends in the poll test, with the status of the answers (R56, R132 to R134). -/
theorem runs_sample {rest : List Prim} {k : Nat} {s : State} (h : Reading s)
    (hr : steady (later k s) (sampleCycles s.cfg)) :
    Runs k (sampleCycles s.cfg) (startPulse (pollKind s.cfg) rest (later k s)) (readEvents s k (pulsesPerSample s.cfg))
      (pollTest (pollKind s.cfg) rest (later (k + sampleCycles s.cfg) (withStatus (sampledStatus s k 0) s))) := by
  cases hw : s.cfg.width with
  | eight =>
    rw [sampleCycles_of_eight hw] at hr ⊢
    simpa [pollKind, pulsesPerSample, sampledStatus, hw, endPulse] using runs_readPulse (kind := .poll8) rfl h hr
  | four =>
    have hstatus : sampledStatus s k 0 =
        sampleInto .lo (sampleInto .hi s.statQ (answer s k 0)) (answer s (k + pulseCycles s.cfg) 0) := by
      rw [← Nat.one_mul (pulseCycles s.cfg), answer_add, sampleInto_lo, setLo, sampleInto_hi, hiNibble_setHi]
      simp [sampledStatus, hw]
    have hevents : readEvents s k (pulsesPerSample s.cfg) = readEvents s k 1 ++ readEvents s (k + pulseCycles s.cfg) 1 := by
      simpa [pulsesPerSample, hw] using readEvents_add s k 1 1
    rw [sampleCycles_of_four hw, Nat.two_mul] at hr ⊢
    obtain ⟨hr₁, hr₂⟩ := steady_split hr
    rw [later_later] at hr₂
    rw [hstatus, hevents, pollKind_of_four hw, ← Nat.add_assoc]
    exact runs_append (runs_readPulse (kind := .poll4Hi) rfl h hr₁)
      (runs_readPulse (kind := .poll4Lo) rfl (h.withStatus (sampleInto .hi s.statQ (answer s k 0))) hr₂)

/-! ## The poll -/

/-- The build's poll as a primitive (R133, R134). -/
def pollPrim (c : Config) : Prim :=
  match c.width with
  | .eight => .poll8
  | .four => .poll4

theorem load_pollPrim (rest : List Prim) (s : State) :
    load (pollPrim s.cfg :: rest) s = startPulse (pollKind s.cfg) rest s := by
  cases hw : s.cfg.width <;> simp [pollPrim, pollKind, hw, load]

/-- A busy status asks for another sample (R132). -/
theorem pollTest_of_busy {s : State} (again : PulseKind) (rest : List Prim) (h : busyFlag s.cfg s.statQ = true) :
    pollTest again rest s = startPulse again rest s :=
  if_pos h

theorem pollTest_of_not_busy {s : State} (again : PulseKind) (rest : List Prim) (h : busyFlag s.cfg s.statQ = false) :
    pollTest again rest s = load rest s :=
  if_neg (by simp [h])

/-- After a busy sample the rest of the poll is a poll with one busy sample fewer. -/
theorem pollAnswered_next {s : State} {k b : Nat} (h : pollAnswered s k (b + 1)) :
    pollAnswered s (k + sampleCycles s.cfg) b := by
  simp only [pollAnswered, sampledStatus_next]
  exact ⟨fun j hj => h.1 (j + 1) (Nat.succ_lt_succ hj), h.2⟩

/-- The samples of a poll, by induction on the busy ones (R131, R132). -/
theorem runs_samples {rest : List Prim} {b : Nat} : ∀ {k : Nat} {s : State}, Reading s → pollAnswered s k b →
    steady (later k s) ((b + 1) * sampleCycles s.cfg) →
    Runs k ((b + 1) * sampleCycles s.cfg) (startPulse (pollKind s.cfg) rest (later k s))
      (readEvents s k (pulsesPerSample s.cfg * (b + 1)))
      (load rest (later (k + (b + 1) * sampleCycles s.cfg) (withStatus (sampledStatus s k b) s))) := by
  induction b with
  | zero =>
    intro k s h hans hr
    rw [Nat.zero_add, Nat.one_mul] at hr ⊢
    rw [Nat.mul_one]
    have hrun := runs_sample (rest := rest) h hr
    rwa [pollTest_of_not_busy _ _ hans.2] at hrun
  | succ b ih =>
    intro k s h hans hr
    rw [Nat.succ_mul, Nat.add_comm] at hr ⊢
    obtain ⟨hr₁, hr₂⟩ := steady_split hr
    rw [later_later] at hr₂
    have hrun := runs_sample (rest := rest) h hr₁
    rw [pollTest_of_busy _ _ (hans.1 0 (Nat.succ_pos b))] at hrun
    have hrest := ih (k := k + sampleCycles s.cfg) (h.withStatus (sampledStatus s k 0))
      (pollAnswered_next hans) hr₂
    rw [← sampledStatus_next, ← Nat.add_assoc]
    refine runs_then hrun hrest rfl ?_
    rw [Nat.mul_succ, Nat.add_comm, readEvents_add]
    rfl

/-- The samples as part of an expansion. -/
theorem takes_samples {k b : Nat} {s : State} (hrs : s.rsQ = false) (hrw : s.rwQ = true) (h : pollAnswered s k b) :
    Takes [pollPrim s.cfg] k ((b + 1) * sampleCycles s.cfg) s (readEvents s k (pulsesPerSample s.cfg * (b + 1)))
      (withStatus (sampledStatus s k b) s) := by
  refine ⟨⟨rfl, rfl, rfl, rfl, rfl⟩, fun hc he hr rest => ?_⟩
  have hrun := runs_samples (rest := rest) ⟨hc, he, hrs, hrw⟩ h hr
  rwa [← later_cfg k s, ← load_pollPrim] at hrun

/-- The registers after a poll whose last status was `v`: the bus is at rest again (R135, R136). -/
def afterPoll (v : Byte) (s : State) : State := { s with rsQ := false, rwQ := false, oeQ := true, statQ := v }

theorem bitOf_afterPoll (v : Byte) (s : State) (r : BitSrc) : bitOf (afterPoll v s) r = bitOf s r := by
  cases r <;> rfl

theorem byteOf_afterPoll (v : Byte) (s : State) (b : ByteSrc) : byteOf (afterPoll v s) b = byteOf s b := by
  cases b <;> rfl

/-- A poll turns the bus around, samples, and turns it back (R135). -/
theorem takes_poll {k b : Nat} {s : State} (h : pollAnswered s (k + 3) b) :
    Takes (pollPrologue ++ [pollPrim s.cfg] ++ pollEpilogue) k (3 + (b + 1) * sampleCycles s.cfg + 2) s
      (readEvents s (k + 3) (pulsesPerSample s.cfg * (b + 1))) (afterPoll (sampledStatus s (k + 3) b) s) := by
  have hpro := ((takes_line (.setDir .input) k s).append (takes_line (.setRw true) _ _)).append
    (takes_line (.setRs (.const false)) _ _)
  have hsamples := hpro.append (takes_samples (b := b) rfl rfl h)
  exact ((hsamples.append (takes_line (.setDir .output) _ _)).append (takes_line (.setRw false) _ _)).congr
    (by simp [pollPrologue, pollEpilogue]) rfl (by simp; rfl) rfl

/-- `WriteByte` in a POLLED build (R141, R143): the poll, and then the byte. -/
theorem takes_writeByte_polled (b : ByteSrc) (r : BitSrc) {k m : Nat} {s : State} (hp : s.cfg.busy = .polled)
    (hlow : s.cfg.width = .four → loNibble s.dbQ = 0) (h : pollAnswered s (k + 3) m) :
    Takes (writeByte s.cfg b r) k (writeByteCycles s.cfg (m + 1)) s (polledEvents s k m (bitOf s r) (byteOf s b))
      (afterSend b r (afterPoll (sampledStatus s (k + 3) m) s)) := by
  refine ((takes_poll h).append (takes_sendByte b r _ rfl hlow)).congr ?_ ?_ ?_ rfl
  · cases hwidth : s.cfg.width <;>
      simp [writeByte, sendByte, writeB8, writeB4, pollPrim, hwidth, hp, afterPoll]
  · cases hwidth : s.cfg.width <;>
      simp [writeByteCycles, sendByteCycles, sampleCycles, pulsesPerSample, hwidth, hp, afterPoll] <;> ring
  · have hcycle : k + 3 + pulsesPerSample s.cfg * (m + 1) * pulseCycles s.cfg + 4 =
        k + (3 + (m + 1) * sampleCycles s.cfg + 2) + 2 := by
      unfold sampleCycles
      ring
    rw [polledEvents, hcycle, bitOf_afterPoll, byteOf_afterPoll]
    rfl

end Sys2Proof.Machine
end

section
/-! Whole requests that send one byte (42_byte_transfer.md R140 to R145; 44_line_cursor.md R184 to R187). -/
namespace Sys2Proof.Machine
open Sys2Proof.Safety

/-- A well-formed state keeps its invariant along a run. -/
theorem stateOk_of_runs {n : Nat} : ∀ {k : Nat} {s t : State} {es : List (Nat × BusEvent)}, StateOk s →
    Runs k n s es t → StateOk t := by
  induction n with
  | zero =>
    intro k s t es h hrun
    cases hrun
    exact h
  | succ n ih =>
    intro k s t es h hrun
    obtain ⟨u, es', hstep, hrun', -⟩ := runs_succ_iff.mp hrun
    exact ih (stepKeepsStateOk s u h hstep) hrun'

/-- The primitives a request that sends one byte loads: WAIT(CLEAR) follows where the request asks for it (R184, R187). -/
def sentList (c : Config) (settle : Bool) : List Prim :=
  writeByte c .val .rsel ++ if settle then [.wait .clear] else []

/-- The registers a request that sends one byte has latched at its acceptance. -/
def latched (p : Sent) (s : State) : State := { s with lineIdx := p.line, valQ := p.val, rselQ := p.rsel }

theorem accept_writeByte (p : Sent) (s : State) (h : p.settle = false) :
    accept p.val p.rsel (writeByte s.cfg .val .rsel) { s with lineIdx := p.line } =
      load (sentList s.cfg p.settle) (latched p s) := by
  rw [h, sentList, if_neg nofun, List.append_nil]
  rfl

theorem acceptSettle_eq (command : Byte) (s : State) :
    acceptSettle command s = load (sentList s.cfg true) (latched ⟨command, false, true, 0⟩ s) := rfl

/-- A legal request other than INIT latches what its rule gives it and loads its expansion (R76). -/
theorem exec_of_sentBy {s : State} {i : Instr} {p : Sent} (hc : s.cfg.conforming = true) (hi : s.inited = true)
    (h : sentBy s i = some p) : exec i s = .next (load (sentList s.cfg p.settle) (latched p s)) := by
  have hw : ∀ effect, whenInited s effect = effect := whenInited_of_inited hi
  cases i with
  | init => cases h
  | cmd b =>
    cases h
    rw [exec, execCmd, hw, ← accept_writeByte _ s rfl]
    rfl
  | data b =>
    cases h
    rw [exec, execData, hw, ← accept_writeByte _ s rfl]
    rfl
  | clear =>
    cases h
    rw [exec, execClear, hw, acceptSettle_eq]
  | home =>
    cases h
    rw [exec, execHome, hw, acceptSettle_eq]
  | goto x y =>
    obtain ⟨hy, hp⟩ := Option.ite_none_right_eq_some.mp h
    cases hp
    rw [exec, execGoto, hw, if_neg (Nat.not_le.mpr hy), ← accept_writeByte _ s rfl]
    rfl
  | putc c =>
    rw [exec, execPutc, hw]
    rw [sentBy] at h
    by_cases hff : c = s.cfg.chFf
    · rw [if_pos hff] at h ⊢
      cases h
      rw [acceptSettle_eq]
    rw [if_neg hff] at h ⊢
    by_cases hnl : c = s.cfg.chNl
    · rw [if_pos hnl] at h ⊢
      cases h
      rw [← accept_writeByte _ s rfl, acceptNewline, nextLine_geometry (conforming_geometry hc)]
      rfl
    · rw [if_neg hnl] at h ⊢
      cases h
      rw [← accept_writeByte _ s rfl]
      rfl

/-- WAIT(CLEAR) after a byte changes no register and makes no event (R184). -/
theorem takes_settle {l : List Prim} {k n : Nat} {s t : State} {es : List (Nat × BusEvent)} (settle : Bool)
    (h : Takes l k n s es t) :
    Takes (l ++ if settle then [.wait .clear] else []) k (n + if settle then s.cfg.nClear else 0) s es t := by
  cases settle with
  | false => simpa using h
  | true =>
    refine (h.append (takes_wait .clear _ t)).congr rfl ?_ (List.append_nil es).symm rfl
    rw [h.frame.cfg]
    rfl

/-- The acceptance takes cycle 0, and then the request's stretch runs to IDLE. -/
theorem runs_request {s t : State} {i : Instr} {p : Sent} {n : Nat} {es : List (Nat × BusEvent)} (hok : StateOk s)
    (hc : s.cfg.conforming = true) (hi : s.inited = true) (hs : s.seq = .idle) (hv : s.inp.reqValid = true)
    (hd : decode s.inp.reqWord = .ok i) (hp : sentBy s i = some p) (hr : steady s (n + 1))
    (h : Takes (sentList s.cfg p.settle) 1 n (latched p s) es t) :
    Runs 0 (n + 1) s es { later (1 + n) t with seq := .idle, dly := 0 } := by
  obtain ⟨he, -⟩ := (seqOk_idle_iff hs).mp hok.seq
  rw [Nat.add_comm n 1] at hr
  obtain ⟨hr₁, hr₂⟩ := steady_split hr
  have hedge : edge s = .next (load (sentList s.cfg p.settle) (latched p s)) := by
    rw [edge_of_request (hr₁ 0 Nat.one_pos).1 hs hv, acceptRequest_of_decode hd, exec_of_sentBy hc hi hp]
  have hstep := step_of_edge hc hedge
  rw [nextInputs_eq_later, ← load_later] at hstep
  have hev : busEvent s (load (sentList s.cfg p.settle) (later 1 (latched p s))) = none := by simp [busEvent, he]
  have hrun := h.toIdle hc he (steady_congr rfl rfl rfl rfl hr₂)
  refine runs_then (runs_one hstep) hrun (Nat.add_comm n 1) ?_
  rw [hev]
  rfl

/-- Settles O24: the acceptance, and then WriteByte of a TIMED build and the wait the request asks for. -/
theorem timedRequestRuns : Obligations.TimedRequestRuns := by
  intro s i p hok hc ht hi hs hv hd hp hr
  have hrun := runs_request hok hc hi hs hv hd hp hr
    (takes_settle p.settle (takes_writeByte_timed .val .rsel 1 (s := latched p s) ht (hok.timedLines ht).1 hok.lowLines))
  exact ⟨_, hrun, stateOk_of_runs hok hrun, rfl, rfl, rfl, rfl, rfl, rfl, hi, rfl, rfl, rfl, rfl⟩

/-- Settles O25: the acceptance, and then WriteByte of a POLLED build, whose poll takes as many samples as the display's
answers ask for, and the wait the request asks for. -/
theorem polledRequestRuns : Obligations.PolledRequestRuns := by
  intro s i p b hok hc hb hi hs hv hd hp hr hans
  have hrun := runs_request hok hc hi hs hv hd hp hr
    (takes_settle p.settle (takes_writeByte_polled .val .rsel (s := latched p s) hb hok.lowLines hans))
  exact ⟨_, hrun, stateOk_of_runs hok hrun, rfl, rfl, rfl, rfl, rfl, rfl, rfl, rfl, rfl, hi, rfl, rfl, rfl⟩

end Sys2Proof.Machine
end

section
/-! A poll that the display keeps busy (42_byte_transfer.md R131, R132; 60_exceptions.md R228). -/
namespace Sys2Proof.Machine
open Sys2Proof.Safety

/-- An edge that leaves the ports alone is followed by the input levels that come after those of the state before it. -/
theorem nextInputs_of_env {s t : State} (hi : t.inp = s.inp) (ht : t.tape = s.tape) (hk : t.tick = s.tick) :
    nextInputs t = { t with inp := inputAt s 1, tape := s.tape.tail, tick := s.tick + 1 } := by
  rw [nextInputs, inputAt_congr hi ht hk, ht, hk]

theorem nextInputs_pollTest (again : PulseKind) (rest : List Prim) (s : State) :
    nextInputs (pollTest again rest s) =
      { pollTest again rest s with inp := inputAt s 1, tape := s.tape.tail, tick := s.tick + 1 } := by
  cases hb : busyFlag s.cfg s.statQ with
  | true =>
    rw [pollTest_of_busy _ _ hb]
    exact nextInputs_of_env (by simp) (by simp) (by simp)
  | false =>
    rw [pollTest_of_not_busy _ _ hb]
    exact nextInputs_of_env (by simp) (by simp) (by simp)

/-- Settles O44: the sample's last pulse ends in the poll test. -/
theorem pollTestDecides : Obligations.PollTestDecides := by
  intro s kind rest hc hr hk hs hd
  obtain ⟨hrst, hx⟩ := hr 0 Nat.one_pos
  rw [step_run hc hrst (extraCycle_of_reference hx) hs, advance, if_pos hd]
  obtain rfl | rfl := hk
  · exact congrArg _ (nextInputs_pollTest .poll8 rest s)
  · exact congrArg _ (nextInputs_pollTest .poll4Hi rest s)

/-! ## Inside a sample -/

theorem sampleCycles_pos {c : Config} (hc : c.conforming = true) : 0 < sampleCycles c := by
  have hN := conforming_epw hc
  have hpulse : 0 < pulseCycles c := by
    unfold pulseCycles
    omega
  cases hw : c.width with
  | eight => rwa [sampleCycles_of_eight hw]
  | four =>
    rw [sampleCycles_of_four hw]
    omega

/-- `t` is in RUN, and has the lines and the error status of `s`. -/
structure RunsAs (s t : State) : Prop where
  running : isIdle t = false
  lines : SameLines s t
  errQ : t.errQ = s.errQ
  causeQ : t.causeQ = s.causeQ

/-- For `n` cycles from `t` the block stays in RUN with the lines and the error status of `s`, and it reads the status at most. -/
def ReadsOn (k n : Nat) (s t : State) : Prop :=
  ∃ es u, Runs k n t es u ∧ RunsAs s u ∧ ∀ e ∈ es, ∃ d, e.2 = .read false d

/-- Before the cycles of `ReadsOn` there may be others with read events only. -/
theorem ReadsOn.after {k m n : Nat} {s t u : State} {es : List (Nat × BusEvent)} (h : ReadsOn (k + m) n s u)
    (hrun : Runs k m t es u) (hes : ∀ e ∈ es, ∃ d, e.2 = .read false d) : ReadsOn k (m + n) s t := by
  obtain ⟨es', v, hrun', hv, hes'⟩ := h
  exact ⟨_, v, runs_append hrun hrun', hv, fun e he => (List.mem_append.mp he).elim (hes e) (hes' e)⟩

/-- Only the lines and the error status of the state compared with matter. -/
theorem ReadsOn.congr {k n : Nat} {s s' t : State} (h : ReadsOn k n s' t) (hl : SameLines s s') (he : s'.errQ = s.errQ)
    (hq : s'.causeQ = s.causeQ) : ReadsOn k n s t := by
  obtain ⟨es, u, hrun, hu, hes⟩ := h
  exact ⟨es, u, hrun, ⟨hu.running, hl.trans hu.lines, hu.errQ.trans he, hu.causeQ.trans hq⟩, hes⟩

/-- Inside a phase of a pulse only the counter moves (R108, R115). -/
theorem readsOn_enterPhase {kind : PulseKind} {ph : PulsePhase} {rest : List Prim} {k j : Nat} {s : State}
    (hc : s.cfg.conforming = true) (hr : steady s j) (hj : j < phaseCycles s.cfg ph) :
    ReadsOn k j s (enterPhase kind ph rest s) :=
  ⟨[], _, runs_countdown (s := enterPhase kind ph rest s) (e := phaseCycles s.cfg ph - 1 - j) hc rfl
    (steady_congr rfl rfl rfl rfl hr) (by rw [enterPhase_dly]; omega), ⟨rfl, ⟨rfl, rfl, rfl, rfl⟩, rfl, rfl⟩, nofun⟩

/-- Every cycle of a read pulse is in RUN, and its one event is a read of the status (R108, R110). -/
theorem readsOn_startPulse {kind : PulseKind} {rest : List Prim} {k j : Nat} {s : State} (h : Reading s)
    (hr : steady s j) (hj : j < pulseCycles s.cfg) : ReadsOn k j s (startPulse kind rest s) := by
  have hc := h.conforming
  unfold pulseCycles at hj
  by_cases hsu : j < s.cfg.nSu
  · rw [startPulse_of_ne_zero _ _ (by omega)]
    exact readsOn_enterPhase hc hr hsu
  obtain ⟨i, rfl⟩ := Nat.exists_eq_add_of_le (Nat.not_lt.mp hsu)
  obtain ⟨hr₁, hr₂⟩ := steady_split hr
  refine ReadsOn.after ?_ (runs_startPulse_hi hc hr₁) nofun
  by_cases hhi : i < s.cfg.nEpw
  · exact (readsOn_enterPhase (s := later s.cfg.nSu s) (ph := .hi) hc hr₂ hhi).congr (SameLines.refl s) rfl rfl
  obtain ⟨i, rfl⟩ := Nat.exists_eq_add_of_le (Nat.not_lt.mp hhi)
  have hrun := runs_hi (kind := kind) (rest := rest) (k := k + s.cfg.nSu) (s := later s.cfg.nSu s) hc (steady_split hr₂).1
  rw [later_cfg, later_later] at hrun
  rw [← Nat.add_assoc] at hr
  have hcfg : (afterHi kind s).cfg = s.cfg := afterHi_cfg kind s
  have heh : ReadsOn (k + s.cfg.nSu + s.cfg.nEpw) i (afterHi kind s) (enterPhase kind .eh rest (afterHi kind s)) :=
    readsOn_enterPhase (hcfg ▸ hc) (steady_afterHi kind hc hr) (by rw [hcfg, phaseCycles]; omega)
  refine (heh.congr (afterHi_sameLines kind s) (by simp [afterHi]) (by simp [afterHi])).after hrun fun e he => ?_
  rw [List.mem_singleton.mp he]
  exact ⟨_, h.fallEvent_later _⟩

theorem readEvents_are_reads {s : State} {k n : Nat} {e : Nat × BusEvent} (h : e ∈ readEvents s k n) :
    ∃ d, e.2 = .read false d := by
  obtain ⟨j, -, rfl⟩ := List.mem_map.mp h
  exact ⟨_, rfl⟩

/-- Every cycle of a sample is a cycle of one of its read pulses (R133, R134). -/
theorem readsOn_sample {rest : List Prim} {k j : Nat} {s : State} (h : Reading s) (hr : steady (later k s) j)
    (hj : j < sampleCycles s.cfg) : ReadsOn k j s (startPulse (pollKind s.cfg) rest (later k s)) := by
  by_cases hfirst : j < pulseCycles s.cfg
  · exact (readsOn_startPulse (h.later k) hr hfirst).congr (SameLines.refl s) rfl rfl
  cases hw : s.cfg.width with
  | eight => exact absurd (sampleCycles_of_eight hw ▸ hj) hfirst
  | four =>
    rw [sampleCycles_of_four hw, Nat.two_mul] at hj
    obtain ⟨i, rfl⟩ := Nat.exists_eq_add_of_le (Nat.not_lt.mp hfirst)
    obtain ⟨hr₁, hr₂⟩ := steady_split hr
    rw [later_later] at hr₂
    rw [pollKind_of_four hw]
    have hlow (v : Byte) : ReadsOn (k + pulseCycles s.cfg) i s
        (startPulse .poll4Lo rest (later (k + pulseCycles s.cfg) (withStatus v s))) :=
      (readsOn_startPulse ((h.withStatus v).later _) hr₂ (Nat.lt_of_add_lt_add_left hj)).congr (SameLines.refl s) rfl rfl
    exact (hlow _).after (runs_readPulse (kind := .poll4Hi) rfl h hr₁) fun _ => readEvents_are_reads

/-- A poll that meets only busy samples reads on, by induction on the cycles, sample by sample (R131, R132). -/
theorem readsOn_of_busy {rest : List Prim} {n : Nat} : ∀ {k : Nat} {s : State}, Reading s → steady (later k s) n →
    (∀ j, j < n → busyFlag s.cfg (sampledStatus s k j) = true) →
    ReadsOn k n s (startPulse (pollKind s.cfg) rest (later k s)) := by
  induction n using Nat.strong_induction_on with
  | h n ih =>
    intro k s h hr hbusy
    by_cases hn : n < sampleCycles s.cfg
    · exact readsOn_sample h hr hn
    obtain ⟨m, rfl⟩ := Nat.exists_eq_add_of_le (Nat.not_lt.mp hn)
    have hpos := sampleCycles_pos h.conforming
    obtain ⟨hr₁, hr₂⟩ := steady_split hr
    rw [later_later] at hr₂
    have hrun := runs_sample (rest := rest) h hr₁
    rw [pollTest_of_busy _ _ (hbusy 0 (by omega))] at hrun
    refine ReadsOn.after ?_ hrun fun _ => readEvents_are_reads
    refine (ih m (by omega) (h.withStatus (sampledStatus s k 0)) hr₂
      fun j hj => ?_).congr (SameLines.refl s) rfl rfl
    exact (congrArg _ (sampledStatus_next s k j)).trans (hbusy (j + 1) (by omega))

/-- Settles O28: however many cycles go by, they are cycles of busy samples. -/
theorem busyPollNeverEnds : Obligations.BusyPollNeverEnds := by
  intro s rest n hc he hrs hrw hoe hr hbusy
  obtain ⟨es, t, hrun, ht, hes⟩ := readsOn_of_busy (k := 0) (rest := rest) ⟨hc, he, hrs, hrw⟩ hr hbusy
  obtain ⟨hrs', hrw', hdb', hoe'⟩ := ht.lines
  exact ⟨es, t, hrun, ht.running, by simp [reqReady, ht.running], by simp [initDone, ht.running], hrs'.trans hrs,
    hrw'.trans hrw, hoe'.trans hoe, hdb', ht.errQ, ht.causeQ, hes⟩

end Sys2Proof.Machine
end

section
/-! INIT (43_init_sequencer.md R160 to R167): its acceptance, the mode-lock sequence, and the bytes of TAIL. -/
namespace Sys2Proof.Machine
open Sys2Proof.Safety

/-! ## Acceptance -/

/-- The registers INIT has written at its acceptance, before its expansion (R160). -/
def initLatched (s : State) : State := { s with inited := true, lineIdx := 0, valQ := 0x00, rselQ := false }

/-- INIT before INIT is accepted (R160). -/
theorem exec_init {s : State} (hi : s.inited = false) :
    exec .init s = .next (load (initSequence s.cfg) (initLatched s)) := by
  rw [exec, execInit, hi]
  rfl

/-- The mode-lock sequence begins with the power-on wait in both widths (R162, R164). -/
theorem initSequence_eq_cons (c : Config) : initSequence c = .wait .power :: (initSequence c).tail := by
  cases hw : c.width <;> simp [initSequence, modeLock, modeLock8, modeLock4, hw]

/-- Settles O16: the first primitive is a wait that has a cycle, and its first cycle writes no output register. -/
theorem initAccepted : Obligations.InitAccepted := by
  intro s hi hp
  have hload : exec .init s = .next { initLatched s with
      seq := .run (.wait .power) (initSequence s.cfg).tail, dly := s.cfg.nPower - 1 } := by
    rw [exec_init hi, initSequence_eq_cons, load_wait_pos .power _ (initLatched s) (Nat.ne_of_gt hp)]
    rfl
  exact ⟨_, hload, rfl, rfl, rfl, rfl, ⟨rfl, rfl, rfl, rfl, rfl, rfl, rfl, rfl, rfl, rfl⟩, rfl, rfl, rfl, _, rfl,
    (initSequence_eq_cons s.cfg).symm⟩

/-- An acceptance takes cycle 0, and then what it loads runs to IDLE: `runs_request` for any request. -/
theorem runs_accepted {s u t : State} {i : Instr} {l : List Prim} {n : Nat} {es : List (Nat × BusEvent)} (hok : StateOk s)
    (hc : s.cfg.conforming = true) (hs : s.seq = .idle) (hv : s.inp.reqValid = true) (hd : decode s.inp.reqWord = .ok i)
    (hx : exec i s = .next (load l u)) (hf : SameFrame s u) (hr : steady s (n + 1)) (h : Takes l 1 n u es t) :
    Runs 0 (n + 1) s es { later (1 + n) t with seq := .idle, dly := 0 } := by
  obtain ⟨he, -⟩ := (seqOk_idle_iff hs).mp hok.seq
  rw [Nat.add_comm n 1] at hr
  obtain ⟨hr₁, hr₂⟩ := steady_split hr
  have hedge : edge s = .next (load l u) := by
    rw [edge_of_request (hr₁ 0 Nat.one_pos).1 hs hv, acceptRequest_of_decode hd, hx]
  have hstep := step_of_edge hc hedge
  rw [nextInputs_eq_later, ← load_later] at hstep
  have hev : busEvent s (load l (later 1 u)) = none := by simp [busEvent, he]
  have hrun := h.toIdle (hf.cfg ▸ hc) (hf.eQ.trans he) (hf.steady_later hr₂)
  refine runs_then (runs_one hstep) hrun (Nat.add_comm n 1) ?_
  rw [hev]
  rfl

/-! ## The mode-lock sequence -/

/-- The primitive that puts a function set on the lines: the whole byte, or its high nibble in a 4-bit build. -/
def topOp (c : Config) (b : Byte) : LineOp :=
  match c.width with
  | .eight => .put8 (.const b)
  | .four => .putHi (.const b)

/-- The data lines after it. -/
def withTop (b : Byte) (s : State) : State :=
  { s with dbQ := match s.cfg.width with
    | .eight => b
    | .four => setHi s.dbQ (hiNibble b) }

theorem applyLine_topOp (b : Byte) (s : State) : applyLine (topOp s.cfg b) s = withTop b s := by
  cases hw : s.cfg.width <;> simp [topOp, withTop, applyLine, byteOf, hw]

theorem busData_withTop (b : Byte) (s : State) : busData (withTop b s) = shown s.cfg b := by
  cases hw : s.cfg.width <;> simp [busData, withTop, shown, hw]

/-- A later function set replaces an earlier one. -/
theorem withTop_withTop (a b : Byte) (s : State) : withTop b (withTop a s) = withTop b s := by
  cases hw : s.cfg.width <;> simp [withTop, hw, setHi_setHi]

@[simp] theorem withTop_cfg (b : Byte) (s : State) : (withTop b s).cfg = s.cfg := rfl

/-- A function set shows its byte, or its high nibble, to the display (R162, R164). -/
theorem takes_functionSet (b : Byte) (k : Nat) {c : Config} {s : State} (hc : s.cfg = c) (hw : s.rwQ = false)
    (hrs : s.rsQ = false) :
    Takes [.line (topOp c b), .pulse] k (1 + pulseCycles c) s [(k + 1 + c.nSu + c.nEpw, .write false (shown c b))]
      (withTop b s) := by
  subst hc
  have hline := takes_line (topOp s.cfg b) k s
  rw [applyLine_topOp] at hline
  refine (hline.append (takes_pulse _ (s := withTop b s) hw)).congr rfl rfl ?_ rfl
  rw [busData_withTop, ← hrs]
  rfl

/-- The part of the mode-lock sequence that both widths have: the three function sets and the waits around them. -/
def threeSets (c : Config) : List Prim :=
  let set := [.line (topOp c c.cmds.fs8), .pulse]
  [.wait .power] ++ [.line (.setRs (.const false))] ++ set ++ [.wait .r1] ++ set ++ [.wait .r2] ++ set ++ [.wait .r3]
    ++ [.wait .trail]

/-- The cycles of that part. -/
def threeSetsCycles (c : Config) : Nat :=
  c.nPower + 1 + 3 * (1 + pulseCycles c) + c.nR1 + c.nR2 + c.nR3 + c.nTrail

/-- The function sets with their cycles, INIT being accepted in cycle 0. -/
def functionSetEvents (c : Config) : List (Nat × BusEvent) := (functionSetCycles c).zip (functionSets c)

/-- The registers after a function set of the mode-lock sequence. -/
def afterSet (b : Byte) (s : State) : State := withTop b { s with rsQ := false }

@[simp] theorem afterSet_cfg (b : Byte) (s : State) : (afterSet b s).cfg = s.cfg := rfl

/-- Only the last function set is seen in the registers. -/
theorem withTop_afterSet (a b : Byte) (s : State) : withTop b (afterSet a s) = afterSet b s := withTop_withTop a b _

theorem takes_threeSets {s : State} (hw : s.rwQ = false) :
    Takes (threeSets s.cfg) 1 (threeSetsCycles s.cfg) s ((functionSetEvents s.cfg).take 3)
      (afterSet s.cfg.cmds.fs8 s) := by
  have hwait (d : Delay) (k : Nat) :
      Takes [.wait d] k (delayCycles s.cfg d) (afterSet s.cfg.cmds.fs8 s) [] (afterSet s.cfg.cmds.fs8 s) :=
    takes_wait d k (afterSet s.cfg.cmds.fs8 s)
  have hset (k : Nat) := takes_functionSet s.cfg.cmds.fs8 k (c := s.cfg) (s := afterSet s.cfg.cmds.fs8 s) rfl hw rfl
  rw [withTop_afterSet] at hset
  have hfirst := ((takes_wait .power 1 s).append (takes_line (.setRs (.const false)) _ s)).append
    (takes_functionSet s.cfg.cmds.fs8 _ (c := s.cfg) rfl hw rfl)
  have hsecond := (hfirst.append (hwait .r1 _)).append (hset _)
  have hthird := (hsecond.append (hwait .r2 _)).append (hset _)
  refine ((hthird.append (hwait .r3 _)).append (hwait .trail _)).congr rfl ?_ ?_ rfl
  · simp only [threeSetsCycles, delayCycles]
    omega
  · cases hwidth : s.cfg.width <;>
      simp [functionSetEvents, functionSetCycles, functionSets, hwidth, delayCycles] <;> omega

/-- The last byte of the mode-lock sequence. -/
def lastSet (c : Config) : Byte :=
  match c.width with
  | .eight => c.cmds.fs8
  | .four => c.cmds.switch4

/-- The mode-lock sequence, accepted in cycle 0 (R162, R164): a 4-bit build has the switch to 4 bits behind the three sets. -/
theorem takes_modeLock {s : State} (hw : s.rwQ = false) :
    Takes (modeLock s.cfg) 1 (modeLockCycles s.cfg) s (functionSetEvents s.cfg)
      (afterSet (lastSet s.cfg) s) := by
  have h := takes_threeSets hw
  cases hwidth : s.cfg.width with
  | eight =>
    refine h.congr ?_ ?_ ?_ ?_
    · simp [modeLock, modeLock8, threeSets, topOp, hwidth]
    · simp [modeLockCycles, threeSetsCycles, hwidth]
    · simp [functionSetEvents, functionSetCycles, functionSets, hwidth]
    · simp [lastSet, hwidth]
  | four =>
    have hswitch := h.append (takes_functionSet s.cfg.cmds.switch4 _ (c := s.cfg) rfl hw rfl)
    refine (hswitch.append (takes_wait .switch _ _)).congr ?_ ?_ ?_ ?_
    · simp [modeLock, modeLock4, threeSets, topOp, hwidth]
    · simp [modeLockCycles, threeSetsCycles, hwidth, delayCycles]
      omega
    · simp [functionSetEvents, functionSetCycles, functionSets, hwidth, threeSetsCycles]
      omega
    · simp [lastSet, hwidth, withTop_afterSet]

/-! ## TAIL -/

/-- TAIL is its four writes, one after another, and then WAIT(CLEAR) (R166). -/
theorem initTail_eq (c : Config) :
    initTail c =
      (List.range 4).flatMap (fun j => writeByte c (.const (tailByte c j)) (.const false)) ++ [.wait .clear] := by
  simp [initTail, writeAndSettle, tailByte, List.range_succ]

/-- The registers in TAIL, given what the writes of TAIL change. -/
def inTail (s : State) (db stat : Byte) : State := { s with rsQ := false, dbQ := db, statQ := stat }

/-- The data lines before the `j`-th write of TAIL. -/
def tailDb (s : State) : Nat → Byte
  | 0 => (afterSet (lastSet s.cfg) s).dbQ
  | j + 1 => busAfter s.cfg (tailByte s.cfg j)

/-- The status register before the `j`-th write of TAIL in a POLLED build, whose polls take `b i` busy samples. -/
def tailStat (s : State) (b : Nat → Nat) : Nat → Byte
  | 0 => s.statQ
  | j + 1 => sampledStatus s (tailStart s.cfg b j + 4) (b j)

/-- A byte sent in a 4-bit build leaves 0 on the lower data lines. -/
theorem loNibble_busAfter {c : Config} (hw : c.width = .four) (v : Byte) : loNibble (busAfter c v) = 0 := by
  have h : busAfter c v = setHi 0 (loNibble v) := by
    simp only [busAfter, hw]
    rfl
  rw [h, loNibble_setHi]
  rfl

/-- The lower data lines stay 0 in a 4-bit build (R26). -/
theorem loNibble_tailDb {s : State} (h : s.cfg.width = .four → loNibble s.dbQ = 0) (hw : s.cfg.width = .four) (j : Nat) :
    loNibble (tailDb s j) = 0 := by
  cases j with
  | zero => simp [tailDb, afterSet, withTop, hw, h hw]
  | succ j => exact loNibble_busAfter hw _

/-- The writes of TAIL, by induction: each begins in the cycle in which the one before it ends, with the registers that one
leaves. -/
theorem takes_tailWrites {c : Config} {b : Nat → Nat} {s : State} {u : Nat → State} {es : List (Nat × BusEvent)}
    {ev : Nat → List (Nat × BusEvent)} {n : Nat} (hlock : Takes (modeLock c) 1 (modeLockCycles c) s es (u 0))
    (hwrite : ∀ j, j < n → Takes (writeByte c (.const (tailByte c j)) (.const false)) (tailStart c b j + 1)
      (writeByteCycles c (b j + 1)) (u j) (ev j) (u (j + 1))) :
    Takes (modeLock c ++ (List.range n).flatMap fun j => writeByte c (.const (tailByte c j)) (.const false)) 1
      (tailStart c b n) s (es ++ (List.range n).flatMap ev) (u n) := by
  induction n with
  | zero => simpa [tailStart] using hlock
  | succ n ih =>
    have hlast := hwrite n n.lt_succ_self
    rw [Nat.add_comm] at hlast
    refine ((ih fun j hj => hwrite j (Nat.lt_succ_of_lt hj)).append hlast).congr ?_ rfl ?_ rfl <;> simp [List.range_succ]

/-- The whole of INIT from its writes (R160, R167). -/
theorem takes_initSequence {b : Nat → Nat} {s : State} {u : Nat → State} {ev : Nat → List (Nat × BusEvent)}
    (hw : s.rwQ = false) (hfirst : u 0 = afterSet (lastSet s.cfg) s)
    (hwrite : ∀ j, j < 4 → Takes (writeByte s.cfg (.const (tailByte s.cfg j)) (.const false)) (tailStart s.cfg b j + 1)
      (writeByteCycles s.cfg (b j + 1)) (u j) (ev j) (u (j + 1))) :
    Takes (initSequence s.cfg) 1 (initCycles s.cfg (b 0 + 1) (b 1 + 1) (b 2 + 1) (b 3 + 1)) s
      (functionSetEvents s.cfg ++ (List.range 4).flatMap ev) (u 4) := by
  have hlock := takes_modeLock hw
  rw [← hfirst] at hlock
  have hwrites := takes_tailWrites hlock hwrite
  refine (hwrites.append (takes_wait .clear _ (u 4))).congr ?_ ?_ (List.append_nil _).symm rfl
  · rw [initSequence, initTail_eq, List.append_assoc]
  · rw [hwrites.frame.cfg]
    rfl

/-- A well-formed block that INIT has found IDLE runs the sequence to IDLE (R160, R167). -/
theorem runs_init {s t : State} {n : Nat} {es : List (Nat × BusEvent)} (hok : StateOk s) (hc : s.cfg.conforming = true)
    (hi : s.inited = false) (hs : s.seq = .idle) (hv : s.inp.reqValid = true) (hw : s.inp.reqWord = 0x0000)
    (hr : steady s (n + 1)) (h : Takes (initSequence s.cfg) 1 n (initLatched s) es t) :
    Runs 0 (n + 1) s es { later (1 + n) t with seq := .idle, dly := 0 } := by
  have hd : decode s.inp.reqWord = .ok .init := by
    rw [hw]
    decide
  exact runs_accepted hok hc hs hv hd (exec_init hi) ⟨rfl, rfl, rfl, rfl, rfl⟩ hr h

/-- Settles O26: the acceptance, the mode-lock sequence, and TAIL with the writes of a TIMED build. -/
theorem timedInitRuns : Obligations.TimedInitRuns := by
  intro s hok hc ht hi hs hv hw hr
  obtain ⟨-, -, hrw, -⟩ := (seqOk_idle_iff hs).mp hok.seq
  have htakes := takes_initSequence (s := initLatched s) (b := fun _ => 0)
    (u := fun j => inTail (initLatched s) (tailDb s j) s.statQ) hrw rfl fun j _ =>
      takes_writeByte_timed _ _ _ (s := inTail (initLatched s) (tailDb s j) s.statQ) ht hrw
        fun hf => loNibble_tailDb hok.lowLines hf j
  have hrun := runs_init hok hc hi hs hv hw hr htakes
  exact ⟨_, hrun, stateOk_of_runs hok hrun, rfl, rfl, rfl, rfl, rfl, rfl, rfl, rfl, rfl, rfl⟩

/-- A polled write of TAIL leaves the bus as it found it (R136). -/
theorem afterSend_inTail {s : State} (hrw : s.rwQ = false) (hoe : s.oeQ = true) (b db stat stat' : Byte) :
    afterSend (.const b) (.const false) (afterPoll stat' (inTail s db stat)) = inTail s (busAfter s.cfg b) stat' := by
  simp [afterSend, afterPoll, inTail, bitOf, byteOf, hrw, hoe]

/-- Settles O27: the same with the writes of a POLLED build, each poll taking as many samples as the display's answers ask
for. -/
theorem polledInitRuns : Obligations.PolledInitRuns := by
  intro s b hok hc hp hi hs hv hw hr hans
  obtain ⟨-, -, hrw, hoe⟩ := (seqOk_idle_iff hs).mp hok.seq
  have htakes := takes_initSequence (s := initLatched s) (b := b)
    (u := fun j => inTail (initLatched s) (tailDb s j) (tailStat s b j)) hrw rfl fun j hj =>
      (takes_writeByte_polled _ _ (s := inTail (initLatched s) (tailDb s j) (tailStat s b j)) hp
        (fun hf => loNibble_tailDb hok.lowLines hf j) (hans j hj)).congr rfl rfl rfl
        (afterSend_inTail (s := initLatched s) hrw hoe _ _ _ _).symm
  have hrun := runs_init hok hc hi hs hv hw hr htakes
  exact ⟨_, hrun, stateOk_of_runs hok hrun, rfl, rfl, rfl, hrw, hoe, rfl, rfl, rfl, rfl, rfl, rfl, rfl, rfl⟩

end Sys2Proof.Machine
end

section
/-! The function sets come first (43_init_sequencer.md R168): what the block is sure to write next, whatever the host presents
and the display answers, and that no cycle changes it but by an event that makes its first part true. -/
namespace Sys2Proof.Safety
open Sys2Proof.Machine

/-- The write events that a list of primitives is sure to make, RS and the data lines being as given: those before its first
primitive that samples the bus or reads a latched operand. -/
def sureWrites (c : Config) : Bool → Byte → List Prim → List BusEvent
  | _, db, .line (.setRs (.const v)) :: rest => sureWrites c v db rest
  | rs, _, .line (.put8 (.const b)) :: rest => sureWrites c rs b rest
  | rs, db, .line (.putHi (.const b)) :: rest => sureWrites c rs (setHi db (hiNibble b)) rest
  | rs, db, .wait _ :: rest => sureWrites c rs db rest
  | rs, db, .pulse :: rest => .write rs (shown c db) :: sureWrites c rs db rest
  | _, _, _ => []

/-- The write events the block is sure to make next, if no reset comes: the rest of the request under way; before INIT, the
function sets, since no other request is accepted (R220). -/
def sure (s : State) : List BusEvent :=
  match s.seq with
  | .idle => if s.inited then [] else functionSets s.cfg
  | .run (.line _) rest => sureWrites s.cfg s.rsQ s.dbQ rest
  | .run (.wait _) rest => sureWrites s.cfg s.rsQ s.dbQ rest
  | .run (.pulse .write .su) rest => .write s.rsQ (busData s) :: sureWrites s.cfg s.rsQ s.dbQ rest
  | .run (.pulse .write .hi) rest => .write s.rsQ (busData s) :: sureWrites s.cfg s.rsQ s.dbQ rest
  | .run (.pulse .write .eh) rest => sureWrites s.cfg s.rsQ s.dbQ rest
  | .run (.pulse _ _) _ => []

/-- The enable falls only from 1 (R69). -/
theorem busEvent_of_enable_off {s : State} (he : s.eQ = false) (t : State) : busEvent s t = none := by
  simp [busEvent, he]

/-- What a list is sure to write, the block is sure to write once the list is loaded. -/
theorem sureWrites_prefix_load (l : List Prim) (s : State) :
    sureWrites s.cfg s.rsQ s.dbQ l <+: sure (load l s) := by
  induction l with
  | nil => simp [sureWrites]
  | cons p rest ih =>
    cases p with
    | line op =>
      cases op with
      | setRs v => cases v <;> simp [sureWrites, load, sure, applyLine, bitOf]
      | put8 b => cases b <;> simp [sureWrites, load, sure, applyLine, byteOf]
      | putHi b => cases b <;> simp [sureWrites, load, sure, applyLine, byteOf]
      | setRw v => simp [sureWrites]
      | setDir d => simp [sureWrites]
      | putLo b => simp [sureWrites]
    | wait k =>
      rw [sureWrites]
      by_cases h : delayCycles s.cfg k = 0
      · rwa [load_wait_zero _ _ _ h]
      · rw [load_wait_pos _ _ _ h]
        exact List.prefix_rfl
    | pulse => simp only [load, startPulse]; split <;> exact List.prefix_rfl
    | pulseRd part => simp [sureWrites]
    | poll8 => simp [sureWrites]
    | poll4 => simp [sureWrites]

/-- The function sets are what INIT's expansion is sure to write first, in both widths (R162, R164). -/
theorem functionSets_prefix (c : Config) (rs : Bool) (db : Byte) :
    functionSets c <+: sureWrites c rs db (initSequence c) := by
  cases hw : c.width <;>
    simp [functionSets, initSequence, modeLock, modeLock8, modeLock4, hw, sureWrites, shown]

theorem sure_of_idle {s : State} (hs : s.seq = .idle) : sure s = if s.inited then [] else functionSets s.cfg := by
  rw [sure, hs]

/-- At the end of a phase, only the high phase of a write pulse makes an event that was sure, and it was the first of them. -/
theorem sure_finish {cur : Cur} {rest : List Prim} {s : State} (hok : StateOk s) (hr : s.inp.rst = false)
    (hs : s.seq = .run cur rest) :
    sure s <+: (busEvent s (nextInputs (finish cur rest s))).toList ++ sure (finish cur rest s) := by
  obtain ⟨-, he, -, -, -⟩ := (seqOk_run_iff hs).mp hok.seq
  have hload : s.eQ = false → ∀ t, sureWrites s.cfg s.rsQ s.dbQ rest <+: (busEvent s t).toList ++ sure (load rest s) := by
    intro hoff t
    rw [busEvent_of_enable_off hoff]
    exact sureWrites_prefix_load rest s
  cases cur with
  | line op =>
    rw [sure, hs]
    exact hload he _
  | wait k =>
    rw [sure, hs]
    exact hload he _
  | pulse kind ph =>
    cases kind with
    | write =>
      cases ph with
      | su =>
        rw [sure, hs, busEvent_of_enable_off he]
        exact List.prefix_rfl
      | hi =>
        have hp := highPhase_of_stateOk hok hs
        have hev : busEvent s (nextInputs (finish (.pulse .write .hi) rest s)) = some (.write s.rsQ (busData s)) := by
          rw [busEvent_no_reset hr, fallEvent, hp.rw, hp.enable]
          rfl
        rw [sure, hs, hev]
        exact List.prefix_rfl
      | eh =>
        rw [sure, hs]
        exact hload he _
    | read part => simp [sure, hs]
    | poll8 => simp [sure, hs]
    | poll4Hi => simp [sure, hs]
    | poll4Lo => simp [sure, hs]

/-- A request is accepted before INIT only if it is INIT, and that one's expansion begins with the function sets (R168,
R220). -/
theorem sure_acceptRequest {s u : State} (hs : s.seq = .idle) (h : acceptRequest s = .next u) : sure s <+: sure u := by
  obtain ⟨c, -, rfl⟩ | ⟨i, -, hd, ha⟩ := acceptRequest_cases h
  · have hidle : (illegalRequest c s).seq = .idle := by simp [hs]
    rw [sure_of_idle hs, sure_of_idle hidle, illegalRequest_inited, illegalRequest_cfg]
  · rw [sure_of_idle hs]
    cases hi : s.inited with
    | true => exact List.nil_prefix
    | false =>
      obtain rfl : i = .init := ha.initFirst.resolve_left (by simp [hi])
      rw [acceptRequest_of_decode hd, exec_init hi] at h
      cases h
      exact (functionSets_prefix s.cfg s.rsQ s.dbQ).trans (sureWrites_prefix_load _ (initLatched s))

/-- What the block is sure to write it writes: a step without a reset makes the first of it, or no event (R168). -/
theorem sure_step {s t : State} (hok : StateOk s) (hr : s.inp.rst = false) (h : step s = .next t) :
    sure s <+: (busEvent s t).toList ++ sure t := by
  obtain ⟨-, u, hu, rfl⟩ := step_cases h
  show sure s <+: (busEvent s (nextInputs u)).toList ++ sure u
  obtain ⟨hrst, -⟩ | ⟨-, rfl⟩ | ⟨-, -, cur, rest, hs, rfl⟩ | ⟨-, hs, -, ha⟩ | ⟨-, -, -, rfl⟩ := edge_cases hu
  · cases hrst.symm.trans hr
  · rw [busEvent_nextInputs]
    exact List.prefix_rfl
  · by_cases hd : s.dly = 0
    · rw [advance, if_pos hd]
      exact sure_finish hok hr hs
    · have hev : busEvent s (nextInputs { s with dly := s.dly - 1 }) = none := by simp [busEvent]
      rw [advance, if_neg hd, hev]
      exact List.prefix_rfl
  · obtain ⟨he, -⟩ := (seqOk_idle_iff hs).mp hok.seq
    rw [busEvent_of_enable_off he]
    exact sure_acceptRequest hs ha
  · rw [busEvent_nextInputs]
    exact List.prefix_rfl

/-- One cycle later the input levels have moved up by one. -/
theorem inputAt_step {s t : State} (h : step s = .next t) (j : Nat) : inputAt t j = inputAt s (j + 1) := by
  obtain ⟨-, u, hu, rfl⟩ := step_cases h
  obtain ⟨hinp, htape, htick⟩ := edge_env s u hu
  rw [nextInputs_eq_later, inputAt_later, Nat.add_comm 1 j, inputAt_congr hinp htape htick]

/-- The events of a run without a reset begin with what was sure at its start, as far as the run goes. -/
theorem sure_runs {n : Nat} : ∀ {k : Nat} {s t : State} {es : List (Nat × BusEvent)}, StateOk s → noReset s n →
    Runs k n s es t → sure s <+: es.map Prod.snd ++ sure t := by
  induction n with
  | zero =>
    intro k s t es _ _ h
    cases h
    exact List.prefix_rfl
  | succ n ih =>
    intro k s t es hok hr h
    obtain ⟨u, es', hstep, hrun, rfl⟩ := runs_succ_iff.mp h
    have hrest := ih (stepKeepsStateOk s u hok hstep)
      (fun j hj => inputAt_step hstep j ▸ hr (j + 1) (Nat.succ_lt_succ hj)) hrun
    have hev : (((busEvent s u).map fun e => (k + 1, e)).toList).map Prod.snd = (busEvent s u).toList := by
      cases busEvent s u <;> rfl
    rw [List.map_append, hev, List.append_assoc]
    exact (sure_step hok (hr 0 n.succ_pos) hstep).trans ((List.prefix_append_right_inj _).mpr hrest)

/-- Settles O29: after reset the function sets are sure, so a run's events begin with them or are some of the first. -/
theorem functionSetsComeFirst : Obligations.FunctionSetsComeFirst := by
  intro c i tape n es t hr h
  have hok : StateOk { State.resetOf c with inp := i, tape := tape } :=
    stateOk_resetEdge { State.resetOf c with inp := i, tape := tape }
  have hsure : functionSets c <+: es.map Prod.snd ++ sure t := sure_runs hok hr h
  obtain hall | hpart := List.prefix_or_prefix_of_prefix hsure (List.prefix_append _ _)
  · rw [← List.prefix_iff_eq_take.mp hall]
  · exact (List.take_prefix _ _).trans hpart

end Sys2Proof.Safety
end

section
/-! The line and cursor requests (44_line_cursor.md): the set-DDRAM-address command, what the acceptance of a request that
sends one byte leaves in the registers, and the newline. -/
namespace Sys2Proof.Machine
open Sys2Proof.Safety

/-! ## The set-DDRAM-address command -/

/-- The address of R181, as a number. -/
theorem ddram_toNat (c : Config) (x : Byte) (y : Nat) :
    (ddram c x y).toNat = ((lineBase c y).toNat + x.toNat) % 128 := by
  simp [ddram]

/-- The address of R181, as the low bits of a sum of bytes: 128 divides 256. -/
theorem ddram_eq_setWidth (c : Config) (x : Byte) (y : Nat) : ddram c x y = (lineBase c y + x).setWidth 7 := by
  apply BitVec.eq_of_toNat_eq
  rw [ddram_toNat, BitVec.toNat_setWidth, BitVec.toNat_add]
  omega

/-- Bit 7 is set by the command's opcode, so it does not matter that the address has only seven bits (R182). -/
theorem or_setWidth_seven (v : Byte) : (0x80 : Byte) ||| (v.setWidth 7).setWidth 8 = 0x80 ||| v := by
  ext i hi
  by_cases h : i < 7
  · simp [h, hi]
  · obtain rfl : i = 7 := by omega
    simp

/-- The source's form of the command (R182). -/
theorem setDdramCmd_eq_or_add {c : Config} (hcmd : c.cmds.cmdSetDdram = 0x80) (x : Byte) (y : Nat) :
    setDdramCmd c x y = 0x80 ||| (lineBase c y + x) := by
  rw [setDdramCmd, hcmd, ddram_eq_setWidth]
  exact or_setWidth_seven _

/-- The command a newline sends: the base of its line (R186). -/
theorem setDdramCmd_first_column {c : Config} (hcmd : c.cmds.cmdSetDdram = 0x80) (y : Nat) :
    setDdramCmd c 0 y = 0x80 ||| lineBase c y := by
  rw [setDdramCmd_eq_or_add hcmd]
  exact congrArg _ (BitVec.add_zero _)

/-- The command with its address as a number. -/
theorem setDdramCmd_eq_or_ofNat (c : Config) (x : Byte) (y : Nat) :
    setDdramCmd c x y = c.cmds.cmdSetDdram ||| BitVec.ofNat 8 (ddram c x y).toNat := by
  rw [setDdramCmd, BitVec.ofNat_toNat]

/-- The base of every line there is (R11). -/
theorem lineBase_of_lt_lines {c : Config} (hg : c.geometryOk = true) {y : Nat} (hy : y < c.lines) :
    lineBase c y = if y = 0 then 0x00 else 0x40 := by
  obtain ⟨h0, h1⟩ := lineBase_geometry hg
  rw [(geometryOk_iff.mp hg).1] at hy
  obtain rfl | rfl : y = 0 ∨ y = 1 := by omega
  · exact h0
  · exact h1

/-- Settles O48: `ddram` is the sum modulo 128, and the command's bit 7 hides the difference to the sum modulo 256. -/
theorem setDdramCommand : Obligations.SetDdramCommand := by
  intro c x hg hcmd
  obtain ⟨h0, h1⟩ := lineBase_geometry hg
  refine ⟨fun y _ => ?_, ?_, ?_, ?_, ?_⟩
  · rw [setDdramCmd_eq_or_ofNat, hcmd]
  · rw [setDdramCmd_eq_or_add hcmd, h0]
  · rw [setDdramCmd_eq_or_add hcmd, h1]
  · simp [ddram_toNat, h0]
  · simp [ddram_toNat, h1]

/-! ## The acceptance of a request that sends one byte -/

/-- What an acceptance of such a request leaves unchanged, and the cycle it enters (R76, R140 to R143). -/
theorem load_sentList_starts (p : Sent) (s : State) :
    AcceptanceKeeps s (load (sentList s.cfg p.settle) (latched p s)) ∧
      StartsWrite s (load (sentList s.cfg p.settle) (latched p s)) (if p.settle then [.wait .clear] else []) := by
  unfold StartsWrite sentList writeByte
  cases hw : s.cfg.width <;> cases hb : s.cfg.busy
  all_goals exact ⟨⟨rfl, rfl, rfl, rfl, rfl, rfl, rfl, rfl, rfl, rfl⟩, rfl, rfl, rfl, rfl⟩

/-- The acceptance of such a request after INIT: what it latches, what runs, and what it leaves. -/
theorem accepts_of_loads {o : Host.Outcome State Fault Refusal} (p : Sent) {s : State} (hi : s.inited = true)
    (h : o = .next (load (sentList s.cfg p.settle) (latched p s))) :
    ∃ t, o = .next t ∧ t.valQ = p.val ∧ t.rselQ = p.rsel ∧ t.lineIdx = p.line ∧ t.inited = true ∧ AcceptanceKeeps s t ∧
      StartsWrite s t (if p.settle then [.wait .clear] else []) :=
  ⟨_, h, load_valQ _ _, load_rselQ _ _, load_lineIdx _ _, (load_inited _ _).trans hi, load_sentList_starts p s⟩

/-- CLEAR after INIT (R184). -/
theorem exec_clear {s : State} (hi : s.inited = true) :
    exec .clear s = .next (load (sentList s.cfg true) (latched ⟨s.cfg.cmds.cmdClear, false, true, 0⟩ s)) := by
  rw [exec, execClear, whenInited_of_inited hi, acceptSettle_eq]

/-- HOME after INIT (R185). -/
theorem exec_home {s : State} (hi : s.inited = true) :
    exec .home s = .next (load (sentList s.cfg true) (latched ⟨s.cfg.cmds.cmdHome, false, true, 0⟩ s)) := by
  rw [exec, execHome, whenInited_of_inited hi, acceptSettle_eq]

/-- GOTO after INIT, to a line there is (R180, R183). -/
theorem exec_goto {s : State} (x : Byte) {y : BitVec 2} (hi : s.inited = true) (hy : y.toNat < s.cfg.lines) :
    exec (.goto x y) s =
      .next (load (sentList s.cfg false) (latched ⟨setDdramCmd s.cfg x y.toNat, false, false, s.lineIdx⟩ s)) := by
  rw [exec, execGoto, whenInited_of_inited hi, if_neg (Nat.not_le.mpr hy)]
  exact congrArg _ (accept_writeByte ⟨setDdramCmd s.cfg x y.toNat, false, false, s.lineIdx⟩ s rfl)

/-- Settles O19, by the meaning of CLEAR after INIT. -/
theorem clearAccepted : Obligations.ClearAccepted := fun s hi =>
  accepts_of_loads ⟨s.cfg.cmds.cmdClear, false, true, 0⟩ hi (exec_clear hi)

/-- Settles O20, by the meaning of HOME after INIT. -/
theorem homeAccepted : Obligations.HomeAccepted := fun s hi =>
  accepts_of_loads ⟨s.cfg.cmds.cmdHome, false, true, 0⟩ hi (exec_home hi)

/-- Settles O21: the command of `setDdramCmd`, with the base of the line written out. -/
theorem gotoAccepted : Obligations.GotoAccepted := by
  intro s x y hg hi hy
  have hbase : (lineBase s.cfg y.toNat).toNat = if y = 0 then 0x00 else 0x40 := by
    simp only [lineBase_of_lt_lines hg hy, BitVec.toNat_eq, apply_ite BitVec.toNat]
    rfl
  have hval : setDdramCmd s.cfg x y.toNat =
      s.cfg.cmds.cmdSetDdram ||| BitVec.ofNat 8 (((if y = 0 then 0x00 else 0x40) + x.toNat) % 128) := by
    rw [setDdramCmd_eq_or_ofNat, ddram_toNat, hbase]
  rw [← hval]
  exact accepts_of_loads ⟨_, false, false, s.lineIdx⟩ hi (exec_goto x hi hy)

/-! ## The newline -/

/-- PUTC with the newline character after INIT is the newline handling, unless it is the clear character too (R201). -/
theorem exec_putc_newline {s : State} {c : Byte} (hi : s.inited = true) (hff : c ≠ s.cfg.chFf) (hnl : c = s.cfg.chNl) :
    exec (.putc c) s = .next (acceptNewline s) := by
  rw [exec, execPutc, whenInited_of_inited hi, if_neg hff, if_pos hnl]

@[simp] theorem acceptNewline_lineIdx (s : State) : (acceptNewline s).lineIdx = nextLine s.cfg s.lineIdx :=
  load_lineIdx _ _

@[simp] theorem acceptNewline_valQ (s : State) :
    (acceptNewline s).valQ = setDdramCmd s.cfg 0 (nextLine s.cfg s.lineIdx).toNat :=
  load_valQ _ _

/-- There are two line indices. -/
theorem lineIdx_cases (l : BitVec 1) : l = 0 ∨ l = 1 := by
  revert l
  decide

/-- With the spec's values a newline takes either line to the other and sends the address of its first column (R186). -/
theorem newline_spec {s : State} (hi : s.inited = true) (hspec : s.cfg.specValues) :
    ∃ t, exec (.putc 0x0A) s = .next t ∧ t.lineIdx = (if s.lineIdx = 0 then 1 else 0) ∧
      t.valQ = (if s.lineIdx = 0 then 0xC0 else 0x80) := by
  obtain ⟨hg, -, hcmds, hnl, hff⟩ := hspec
  have hcmd : s.cfg.cmds.cmdSetDdram = 0x80 := by rw [hcmds]; rfl
  obtain ⟨h0, h1⟩ := lineBase_geometry hg
  refine ⟨_, exec_putc_newline hi (by rw [hff]; decide) hnl.symm, ?_, ?_⟩
  · rw [acceptNewline_lineIdx, nextLine_geometry hg]
  · rw [acceptNewline_valQ, nextLine_geometry hg, setDdramCmd_first_column hcmd]
    obtain h | h := lineIdx_cases s.lineIdx
    · rw [h]
      exact congrArg ((0x80 : Byte) ||| ·) h1
    · rw [h]
      exact congrArg ((0x80 : Byte) ||| ·) h0

/-- Settles O49: there are two lines, so a newline after a newline is back on the first. -/
theorem newlineRoundTrip : Obligations.NewlineRoundTrip := by
  intro s s' t hi hspec hexec hi' hcfg hline
  obtain ⟨u, hu, huline, huval⟩ := newline_spec hi hspec
  obtain ⟨t', ht', htline, htval⟩ := newline_spec hi' (hcfg ▸ hspec)
  obtain rfl : u = t := by injection hu.symm.trans hexec
  rw [hline, huline] at htline htval
  obtain h | h := lineIdx_cases s.lineIdx
  all_goals
    rw [h] at huline huval htline htval ⊢
    exact ⟨huval, by rw [huline]; decide, t', ht', htline, htval⟩

end Sys2Proof.Machine
end

section
/-! The text requests (45_text_api.md): CMD, DATA, and the three cases of PUTC. -/
namespace Sys2Proof.Machine
open Sys2Proof.Safety

/-! ## One byte, as given -/

/-- A request that sends one byte leaves the line index alone (R202, R203). -/
theorem acceptByte_eq (val : Byte) (rsel : Bool) (s : State) :
    acceptByte val rsel s = load (sentList s.cfg false) (latched ⟨val, rsel, false, s.lineIdx⟩ s) :=
  accept_writeByte ⟨val, rsel, false, s.lineIdx⟩ s rfl

/-- CMD after INIT (R202). -/
theorem exec_cmd {s : State} (b : Byte) (hi : s.inited = true) :
    exec (.cmd b) s = .next (load (sentList s.cfg false) (latched ⟨b, false, false, s.lineIdx⟩ s)) := by
  rw [exec, execCmd, whenInited_of_inited hi, acceptByte_eq]

/-- DATA after INIT (R203). -/
theorem exec_data {s : State} (b : Byte) (hi : s.inited = true) :
    exec (.data b) s = .next (load (sentList s.cfg false) (latched ⟨b, true, false, s.lineIdx⟩ s)) := by
  rw [exec, execData, whenInited_of_inited hi, acceptByte_eq]

/-- Settles O17, by the meaning of CMD after INIT. -/
theorem cmdAccepted : Obligations.CmdAccepted := fun s b hi =>
  accepts_of_loads ⟨b, false, false, s.lineIdx⟩ hi (exec_cmd b hi)

/-- Settles O18, by the meaning of DATA after INIT. -/
theorem dataAccepted : Obligations.DataAccepted := fun s b hi =>
  accepts_of_loads ⟨b, true, false, s.lineIdx⟩ hi (exec_data b hi)

/-! ## The cases of PUTC -/

/-- Settles O50: the clear character is the first case of R201, and both requests make the same check of `inited`. -/
theorem formFeedIsClear : Obligations.FormFeedIsClear := by
  intro s
  show execPutc s.cfg.chFf s = execClear s
  rw [execPutc, if_pos rfl, execClear]

/-- A character that is neither control character is sent as data (R201). -/
theorem exec_putc_data {s : State} {c : Byte} (hi : s.inited = true) (hff : c ≠ s.cfg.chFf) (hnl : c ≠ s.cfg.chNl) :
    exec (.putc c) s = .next (load (sentList s.cfg false) (latched ⟨c, true, false, s.lineIdx⟩ s)) := by
  rw [exec, execPutc, whenInited_of_inited hi, if_neg hff, if_neg hnl, acceptByte_eq]

/-- The newline sends the command of the next line's first column (R186). -/
theorem acceptNewline_eq (s : State) :
    acceptNewline s = load (sentList s.cfg false)
      (latched ⟨setDdramCmd s.cfg 0 (nextLine s.cfg s.lineIdx).toNat, false, false, nextLine s.cfg s.lineIdx⟩ s) :=
  accept_writeByte ⟨setDdramCmd s.cfg 0 (nextLine s.cfg s.lineIdx).toNat, false, false, nextLine s.cfg s.lineIdx⟩ s rfl

/-- The command of the other line's first column, whatever byte the opcode is (R11, R182, R186). -/
theorem setDdramCmd_nextLine {c : Config} (hg : c.geometryOk = true) (l : BitVec 1) :
    setDdramCmd c 0 (nextLine c l).toNat = c.cmds.cmdSetDdram ||| (if l = 0 then 0x40 else 0x00) := by
  obtain ⟨h0, h1⟩ := lineBase_geometry hg
  rw [setDdramCmd_eq_or_ofNat, ddram_toNat, nextLine_geometry hg]
  obtain rfl | rfl := lineIdx_cases l
  · simp [h1]
  · simp [h0]

/-- Settles O22, by the three cases of R201, each with what its acceptance loads. -/
theorem putcAccepted : Obligations.PutcAccepted := by
  intro s c hg hi
  by_cases hff : c = s.cfg.chFf
  · subst hff
    obtain ⟨t, ht, hval, hrsel, hline, hinit, hkeeps, hstart⟩ :=
      accepts_of_loads ⟨_, _, true, _⟩ hi ((formFeedIsClear s).trans (exec_clear hi))
    refine ⟨t, ht, hinit, hkeeps, ?_⟩
    rw [if_pos rfl]
    exact ⟨hval, hrsel, hline, hstart⟩
  by_cases hnl : c = s.cfg.chNl
  · have hexec := exec_putc_newline hi hff hnl
    rw [acceptNewline_eq, setDdramCmd_nextLine hg, nextLine_geometry hg] at hexec
    obtain ⟨t, ht, hval, hrsel, hline, hinit, hkeeps, hstart⟩ := accepts_of_loads ⟨_, _, false, _⟩ hi hexec
    refine ⟨t, ht, hinit, hkeeps, ?_⟩
    rw [if_neg hff, if_pos hnl]
    exact ⟨hline, hval, hrsel, hstart⟩
  · obtain ⟨t, ht, hval, hrsel, hline, hinit, hkeeps, hstart⟩ :=
      accepts_of_loads ⟨_, _, false, _⟩ hi (exec_putc_data hi hff hnl)
    refine ⟨t, ht, hinit, hkeeps, ?_⟩
    rw [if_neg hff, if_neg hnl]
    exact ⟨hval, hrsel, hline, hstart⟩

end Sys2Proof.Machine
end

section
/-! The illegal-request action (60_exceptions.md R220 to R222), and the fault of a run (R227). -/
namespace Sys2Proof.Machine
open Sys2Proof.Safety

/-! ## The action -/

/-- With an error recorded the action changes nothing; without one it records the cause (R222). -/
theorem illegalRequest_eq_afterIllegal (c : Cause) (s : State) : illegalRequest c s = afterIllegal c s := by
  unfold illegalRequest recordError afterIllegal
  cases herr : s.errQ with
  | false => rfl
  | true => exact congrArg (fun e => { s with errQ := e }) herr

/-- A refused request takes the action and nothing else (R220, R222). -/
theorem exec_eq_afterIllegal {i : Instr} {s : State} {c : Cause} (h : rejection s.cfg s.inited (.ok i) = some c) :
    exec i s = .next (afterIllegal c s) :=
  (exec_of_rejection h).trans (congrArg _ (illegalRequest_eq_afterIllegal c s))

/-- Before INIT every other request is refused with NOINIT, a GOTO whatever its line is (R220). -/
theorem rejection_before_init (c : Config) {i : Instr} (hi : i ≠ .init) : rejection c false (.ok i) = some .noInit := by
  cases i with
  | init => exact absurd rfl hi
  | _ => rfl

/-- After INIT a GOTO is refused by its line (R180, R220). -/
theorem rejection_goto_after_init (c : Config) (x : Byte) (y : BitVec 2) :
    rejection c true (.ok (.goto x y)) = if c.lines ≤ y.toNat then some .lineRange else none := rfl

/-- Settles O23: each clause is one way a decoded request is refused. -/
theorem illegalInState : Obligations.IllegalInState := by
  refine ⟨fun s hi => exec_eq_afterIllegal ?_, fun s i hi hne => exec_eq_afterIllegal ?_,
    fun s x y hi hy => exec_eq_afterIllegal ?_⟩
  · rw [hi]
    rfl
  · rw [hi, rejection_before_init s.cfg hne]
  · rw [hi, rejection_goto_after_init, if_pos hy]

/-! ## An accepted request takes the block out of IDLE -/

/-- A WriteByte begins with a one-cycle primitive in all four builds (R140 to R143). -/
theorem writeByte_eq_line_cons (c : Config) (b : ByteSrc) (r : BitSrc) :
    ∃ op rest, writeByte c b r = .line op :: rest := by
  unfold writeByte
  split <;> exact ⟨_, _, rfl⟩

/-- No expansion is passed over: INIT's begins with the power-on wait, the others with a WriteByte (R160, R184, R202). -/
theorem isIdle_load_expansion {s : State} {l : List Prim} (hc : s.cfg.conforming = true) (hl : l ∈ expansions s.cfg) :
    isIdle (load l s) = false := by
  obtain ⟨op, rest, hw⟩ := writeByte_eq_line_cons s.cfg .val .rsel
  simp only [expansions, List.mem_cons, List.not_mem_nil, or_false] at hl
  obtain rfl | rfl | rfl := hl
  · obtain ⟨hpower, -⟩ := conforming_pos hc
    rw [initSequence_eq_cons, load_wait_pos .power _ s (Nat.ne_of_gt hpower)]
    rfl
  · rw [hw]
    rfl
  · rw [writeAndSettle, hw]
    rfl

theorem accepted_not_idle {i : Instr} {s t : State} (hc : s.cfg.conforming = true) (h : Accepted i s t) :
    isIdle t = false := by
  obtain ⟨val, rsel, l, line, hl, -, rfl⟩ := h.loads
  exact isIdle_load_expansion hc hl

/-! ## A presented word -/

/-- A word that fails a check of R220 takes the action, with the cause of the first check it fails. -/
theorem acceptRequest_of_check_some {s : State} {c : Cause} (h : check s.cfg s.inp.reqWord s.inited = some c) :
    acceptRequest s = .next (afterIllegal c s) := by
  obtain ⟨t, ht⟩ := acceptRequest_next s
  obtain ⟨c', hc', rfl⟩ | ⟨i, hnone, -, -⟩ := acceptRequest_cases ht
  · obtain rfl : c = c' := Option.some.inj (h.symm.trans hc')
    rw [ht, illegalRequest_eq_afterIllegal]
  · cases h.symm.trans hnone

/-- A word that passes every check of R220 is accepted. -/
theorem acceptRequest_of_check_none {s : State} (h : check s.cfg s.inp.reqWord s.inited = none) :
    ∃ i t, acceptRequest s = .next t ∧ Accepted i s t := by
  obtain ⟨t, ht⟩ := acceptRequest_next s
  obtain ⟨c, hsome, -⟩ | ⟨i, -, -, ha⟩ := acceptRequest_cases ht
  · cases h.symm.trans hsome
  · exact ⟨i, t, ht, ha⟩

/-- Settles O12: the step is the acceptance edge of the presented word, whose outcome the checks of R220 decide. -/
theorem illegalRequestAction : Obligations.IllegalRequestAction := by
  intro s hc hr hs hv
  have hedge := edge_of_request hr hs hv
  refine ⟨fun c hcheck => ?_, fun hcheck => ?_⟩
  · exact step_of_edge hc (hedge.trans (acceptRequest_of_check_some hcheck))
  · obtain ⟨i, t, ht, ha⟩ := acceptRequest_of_check_none hcheck
    have hidle := accepted_not_idle hc ha
    have hinit := accepted_inited ha
    have herr := accepted_errQ ha
    have hcause := accepted_causeQ ha
    exact ⟨nextInputs t, step_of_edge hc (hedge.trans ht), hidle, hinit, herr, hcause⟩

/-! ## The fault of a run -/

theorem runFault_eq_some_iff {s : State} {f : Fault} :
    runFault s = some f ↔ s.errQ = true ∧ .illegalRequest s.causeQ = f := by
  simp [runFault]

/-- Settles O51: no reset state has an error, and only a reset clears the error status or changes its cause. -/
theorem runFaultIsSticky : Obligations.RunFaultIsSticky := by
  refine ⟨fun _ => rfl, fun s t f hr h hf => ?_⟩
  obtain ⟨herr, rfl⟩ := runFault_eq_some_iff.mp hf
  obtain ⟨-, hkeeps, -, -⟩ := statusUntilReset s t hr h
  obtain ⟨herr', hcause⟩ := hkeeps herr
  exact runFault_eq_some_iff.mpr ⟨herr', by rw [hcause]⟩

end Sys2Proof.Machine
end

section
/-! Reset (70_reset_and_hazards.md R250, R251): the edge that makes it, and the reset state of a build. -/
namespace Sys2Proof.Machine
open Sys2Proof.Safety

/-- No request is accepted while `rst = 1`, whatever the block is at (R20, R250). -/
theorem reqReady_of_rst {s : State} (hr : s.inp.rst = true) : reqReady s = false := by
  simp [reqReady, hr]

/-- A reset state is its own successor at a reset edge, so what holds after every reset edge holds of it. -/
theorem resetEdge_resetOf (c : Config) : resetEdge (State.resetOf c) = State.resetOf c := rfl

/-- Settles O30: the step is the reset edge, which takes nothing but the build from the state, and then the next cycle's input
levels, which are no register. -/
theorem resetLoadsResetValues : Obligations.ResetLoadsResetValues := by
  intro s hc hr
  refine ⟨reqReady_of_rst hr, nextInputs (resetEdge s), step_reset hc hr, ?_⟩
  simp

/-- Settles O31: each port shows a register at its reset value, but for `req_ready`, made of the phase IDLE and `rst = 0`, and
`init_done`, made of the phase and `inited = 0` (R20). -/
theorem outputsAfterReset : Obligations.OutputsAfterReset :=
  fun _ => rfl

/-- Settles O33: a reset edge leads to a well-formed state in every build, that of `State.reset` among them. -/
theorem stateOkAtReset : Obligations.StateOkAtReset := by
  have hok (c : Config) : StateOk (State.resetOf c) := resetEdge_resetOf c ▸ stateOk_resetEdge (State.resetOf c)
  exact ⟨hok, hok (Config.tc .eight .timed)⟩

end Sys2Proof.Machine
end

section
/-! The word the host places on the request port, and the readiness of the block it leaves (30_encoding.md section 1, R20; log 5). -/
namespace Sys2Proof.Machine

/-- All 16 bits of the port come from a word that fits them. -/
theorem withFetchWord_of_lt {w : Nat} (s : State) (hw : w < 65536) :
    s.withFetchWord 16 w = present s (BitVec.ofNat 16 w) := by
  have hmod : w % 2 ^ 16 = w := Nat.mod_eq_of_lt hw
  rw [State.withFetchWord, hmod]

/-- A block with a word presented is in IDLE and not in reset, which is what R20 makes `req_ready` of. -/
@[simp] theorem reqReady_present (s : State) (w : ReqWord) : reqReady (present s w) = true := rfl

/-- Settles O10: placing a word that fits the port is presenting it, and a block with a word presented is ready. -/
theorem placedWordIsPresented : Obligations.PlacedWordIsPresented := by
  intro s w hw
  rw [withFetchWord_of_lt s hw]
  exact ⟨rfl, reqReady_present s _⟩

end Sys2Proof.Machine
end
